-- ==== Sys2Proof/Word.lean ====
section
/-! DEFINITION. The value types of spec/00_scope.md R9: every value of this machine is unsigned and
one of these two widths (or a Bool). -/

namespace Sys2Proof

/-- `Nibble` (R9, R12): "a 4-bit value, range 0–15". -/
abbrev Nibble := BitVec 4

/-- `Byte` (R9): one entry of the program store. -/
abbrev Byte := BitVec 8

end Sys2Proof
end

