-- ==== Sys2Proof/Config.lean ====
section
/-! DEFINITION. What is fixed for the machine (spec/00_scope.md R6) and the one parameter the spec
names and leaves open (R7 (e)). The other parameters of R7 (the program store with its length, the
input schedule, the number of Steps) are data: fields of State, or a list given to the run loop. -/

namespace Sys2Proof

/-- R6: the program store's capacity, 16 entries. A store may be shorter (conflict C5). -/
def Config.storeCapacity : Nat := 16

/-- R7 (b), decision D8: the length `L` of a program store, "a natural number with 0 <= L <= 16",
the bound being part of the type (DESIGN CHOICE, safe: log 5). -/
abbrev StoreLength := Fin 17

/-- R7 (e), R117, decision D11: `TickPeriod`, OPEN. A free value: nothing constrains it, and no rule
and no definition of this model reads it (DESIGN CHOICE, safe: log 14). -/
opaque Config.tickPeriod : Nat

end Sys2Proof
end

