-- ==== Sys2Proof/Syntax.lean ====
section
/-! DEFINITION. The instructions: one constructor for each of the sixteen rows of
spec/opcode_table.json, in the table's order (spec/30_encoding.md R49). -/

namespace Sys2Proof

/-- The twelve instructions of R48 and the four unknown opcodes of R50. `im` is the immediate
`byte[3:0]`. The five forms without operand field (R47) have no argument: their low nibble is
don't-care. The unknown opcodes keep their low nibble `raw`, which the decoder does not force to 0
(R46) and which the fault records as part of the fetched byte (R96). That these four values are the unknown
ones is the complement of the table's twelve (DEDUCED, unsafe: log 18). -/
inductive Instr
  | addAIm (im : Nibble)
  | movAB
  | inA
  | movAIm (im : Nibble)
  | movBA
  | addBIm (im : Nibble)
  | inB
  | movBIm (im : Nibble)
  | unknown1000 (raw : Nibble)
  | outB
  | unknown1010 (raw : Nibble)
  | outIm (im : Nibble)
  | unknown1100 (raw : Nibble)
  | unknown1101 (raw : Nibble)
  | jncIm (im : Nibble)
  | jmpIm (im : Nibble)
  deriving DecidableEq, Repr

end Sys2Proof
end

