-- ==== Sys2Proof/WellFormed.lean ====
section
/-! DEFINITION. What is well formed. Operand ranges need no check: an operand is a `Nibble`, and
"every operand value of every defined opcode is legal" (spec/60_exceptions.md R95,
spec/30_encoding.md R51). Two checks remain: an instruction is one of the twelve (R48, R50), and a
program store is not longer than its capacity (R94). -/

namespace Sys2Proof

/-- R48, R50: the instruction is one of the closed set of twelve, not one of the four unknown
opcodes. -/
def Instr.wellFormed : Instr → Bool
  | .addAIm _ => true
  | .movAB => true
  | .inA => true
  | .movAIm _ => true
  | .movBA => true
  | .addBIm _ => true
  | .inB => true
  | .movBIm _ => true
  | .unknown1000 _ => false
  | .outB => true
  | .unknown1010 _ => false
  | .outIm _ => true
  | .unknown1100 _ => false
  | .unknown1101 _ => false
  | .jncIm _ => true
  | .jmpIm _ => true

/-- R94: a program store of more than 16 bytes is refused at construction; 0 and 16 bytes are both
accepted. -/
def wellFormedStore (prog : List Byte) : Bool := decide (prog.length ≤ Config.storeCapacity)

end Sys2Proof
end

