-- ==== Sys2Proof/Decode.lean ====
section
/-! DEFINITION. Decoding and encoding (spec/30_encoding.md). Every instruction is one byte (R45,
R53); the decoder is a total function of it (R46), so no byte is rejected: the four opcodes without
an instruction decode to constructors that name them (R49, R50). -/

namespace Sys2Proof

/-! ## The fields of a byte (R8, R45) -/

/-- `byte[7:4]`, the opcode (R8: the document's `byte >> 4`; bit numbers: DEDUCED, safe: log 17). -/
def highNibble (b : Byte) : Nibble := b.extractLsb' 4 4

/-- `byte[3:0]`, the raw operand (R8: the document's `byte & 0xF`). -/
def lowNibble (b : Byte) : Nibble := b.extractLsb' 0 4

/-- `{hi, lo}` (R8): `byte = opcode * 16 + operand` (R45). -/
def joinNibbles (hi lo : Nibble) : Byte := hi ++ lo

/-! ## Decoding -/

/-- R47: the five opcodes whose operand is forced to 0: MOV A,B; MOV B,A; IN A; IN B; OUT B. -/
def operandForced (op : Nibble) : Bool :=
  op == 0b0001#4 || op == 0b0010#4 || op == 0b0100#4 || op == 0b0110#4 || op == 0b1001#4

/-- R46: `decode(byte) -> (opcode, im)`, the decoder as the spec writes it. -/
def decodeFields (b : Byte) : Nibble × Nibble :=
  (highNibble b, if operandForced (highNibble b) then 0#4 else lowNibble b)

/-- R49, R59: the instruction that each of the sixteen opcode values stands for, by the opcode's bits
3, 2, 1, 0. The values are the table's, unaudited by its author (UNVERIFIED, unsafe: log 20). -/
def instrOf (op im : Nibble) : Instr :=
  match op.getLsbD 3, op.getLsbD 2, op.getLsbD 1, op.getLsbD 0 with
  | false, false, false, false => .addAIm im
  | false, false, false, true => .movAB
  | false, false, true, false => .inA
  | false, false, true, true => .movAIm im
  | false, true, false, false => .movBA
  | false, true, false, true => .addBIm im
  | false, true, true, false => .inB
  | false, true, true, true => .movBIm im
  | true, false, false, false => .unknown1000 im
  | true, false, false, true => .outB
  | true, false, true, false => .unknown1010 im
  | true, false, true, true => .outIm im
  | true, true, false, false => .unknown1100 im
  | true, true, false, true => .unknown1101 im
  | true, true, true, false => .jncIm im
  | true, true, true, true => .jmpIm im

/-- R46 followed by the opcode map R49: the instruction a byte is. -/
def decode (b : Byte) : Instr := instrOf (decodeFields b).1 (decodeFields b).2

/-! ## Encoding -/

/-- R49: the opcode of each row. -/
def opcodeOf : Instr → Nibble
  | .addAIm _ => 0b0000#4
  | .movAB => 0b0001#4
  | .inA => 0b0010#4
  | .movAIm _ => 0b0011#4
  | .movBA => 0b0100#4
  | .addBIm _ => 0b0101#4
  | .inB => 0b0110#4
  | .movBIm _ => 0b0111#4
  | .unknown1000 _ => 0b1000#4
  | .outB => 0b1001#4
  | .unknown1010 _ => 0b1010#4
  | .outIm _ => 0b1011#4
  | .unknown1100 _ => 0b1100#4
  | .unknown1101 _ => 0b1101#4
  | .jncIm _ => 0b1110#4
  | .jmpIm _ => 0b1111#4

/-- The low nibble an encoder writes: the operand, and 0 where the nibble is don't-care
(DESIGN CHOICE, safe: log 11, the spec's decision D14, R51). -/
def operandOf : Instr → Nibble
  | .addAIm im => im
  | .movAB => 0#4
  | .inA => 0#4
  | .movAIm im => im
  | .movBA => 0#4
  | .addBIm im => im
  | .inB => 0#4
  | .movBIm im => im
  | .unknown1000 raw => raw
  | .outB => 0#4
  | .unknown1010 raw => raw
  | .outIm im => im
  | .unknown1100 raw => raw
  | .unknown1101 raw => raw
  | .jncIm im => im
  | .jmpIm im => im

/-- R45: the one byte of an instruction. -/
def encode (i : Instr) : Byte := joinNibbles (opcodeOf i) (operandOf i)

/-! ## The opcode table's numbering -/

/-- The instruction read from `nbits` bits `w`, bit 0 the least significant. Every instruction is
one byte (R53), so a longer row, or a word that does not fit its `nbits`, is no instruction (DESIGN CHOICE, safe:
log 19). -/
def decodeTableWord (nbits w : Nat) : Option Instr :=
  if nbits ≤ 8 ∧ w < 2 ^ nbits then some (decode (BitVec.ofNat 8 w)) else none

end Sys2Proof
end

