-- ==== Sys2Proof/Machine/State.lean ====
section
/-! DEFINITION. The machine's state, as plain data: the seven elements of spec/10_state.md R13, the
program store the engine was constructed with (R21), the output trace (R22), the recorded fault
(spec/60_exceptions.md R96) and the host's pending input values (spec/00_scope.md R7 (c)). -/

namespace Sys2Proof.Machine

/-- R20: the engine state, the only status element. -/
inductive RunState
  | running
  | halted
  deriving DecidableEq, Repr

/-- R96, decision D6: the fault enumeration, with the information kept beside a fault. It is
bookkeeping for the host: no instruction reads it (DEDUCED, safe: log 6). -/
inductive FaultCause
  /-- R93: `UnknownOpcode(pc, byte)`, `pc` the address of the offending byte. -/
  | unknownOpcode (pc : Nibble) (byte : Byte)
  deriving DecidableEq, Repr

/-- The bytes of the program store, by address: strictly rising addresses, and no entry that equals
what an unlisted address reads as. Its form is `Memory.wf`. -/
abbrev Memory := List Host.Cell

/-- The complete state. -/
structure State where
  /-- accumulator A (R14) -/
  a : Nibble
  /-- accumulator B (R15) -/
  b : Nibble
  /-- the carry flag C, `true` for 1 (R17; DEDUCED, safe: log 17) -/
  c : Bool
  /-- the program counter PC (R16) -/
  pc : Nibble
  /-- In, the port's input latch (R18) -/
  inLatch : Nibble
  /-- Out, the port's output latch (R19) -/
  outLatch : Nibble
  /-- Run (R20) -/
  run : RunState
  /-- the output trace, oldest event first (R22; DESIGN CHOICE, safe: log 7) -/
  trace : List Nibble
  /-- the recorded fault (R96), none in a normal run -/
  fault : Option FaultCause
  /-- `L`, the program store's length (R7, R21) -/
  progLen : StoreLength
  /-- `prog`, the program store's bytes (R7, R21; kept in State: DESIGN CHOICE, safe: log 5) -/
  mem : Memory
  /-- the model's own field: the values the host will hold in In at the coming Steps, the next Step's
  first; when it is empty the host writes nothing more (R7 (c), R41, decision D3; DESIGN CHOICE,
  unsafe: log 3) -/
  inputs : List Nibble
  deriving DecidableEq, Repr

/-- What stops the machine with a fault: nothing. The one run-time fault of the spec, UnknownOpcode
(R93), is a next state in which Run is Halted, and "No other failure modes exist" (R95); so this type
has no constructor and no step answers a fault (DEDUCED, safe: log 10). -/
inductive Fault
  deriving DecidableEq, Repr

/-- What is refused. -/
inductive Refusal
  /-- An instruction without a meaning, by the table's mnemonic. Raised by an arm of `exec` only; safe.
  No arm raises it: every row of the opcode table has its meaning. -/
  | notModelled (mnemonic : String)
  deriving DecidableEq, Repr

/-- R28, R109: the state right after construction, here of the engine built on the empty program
store, with nothing in the input schedule (DESIGN CHOICE, unsafe: log 4, log 3). Run is Running for
every `L`, also for `L = 0` (decision D2; DEDUCED, unsafe: log 2). -/
def State.reset : State where
  a := 0#4
  b := 0#4
  c := false
  pc := 0#4
  inLatch := 0#4
  outLatch := 0#4
  run := .running
  trace := []
  fault := none
  progLen := 0
  mem := []
  inputs := []

end Sys2Proof.Machine
end

