-- ==== Sys2Proof/Machine/Flags.lean ====
section
/-! DEFINITION. The adder and the carry policy (spec/42_add.md R75 to R79, spec/40_engine_step.md
R61). C is the only flag (R17). -/

namespace Sys2Proof.Machine

/-- R75: the exact sum, "0..30, a 5-bit value". C is never an input to the adder (R78 (a)). -/
def exactSum (x im : Nibble) : Nat := x.toNat + im.toNat

/-- R75, R78 (c): `sum & 0xF`, the result stored. -/
def narrowSum (sum : Nat) : Nibble := BitVec.ofNat 4 sum

/-- R77: the sticky carry: set by a sum above 15, otherwise left as it was (`c0`). -/
def stickyCarry (c0 : Bool) (sum : Nat) : Bool := if sum > 15 then true else c0

/-- R61: what the ten instructions other than ADD leave in C. -/
def clearedCarry : Bool := false

end Sys2Proof.Machine
end

