-- ==== Sys2Proof/Machine/Memory.lean ====
section
/-! DEFINITION. The program store as a memory (spec/20_memory.md R31, R33, R38). No instruction
writes it (R32): `Memory.write` and `Memory.ofBytes` belong to construction, where the host hands the
store over. -/

namespace Sys2Proof.Machine

/-- What an address reads as that no cell lists: all-zero. At and above `L` the spec says so (R33);
below `L` it is how a byte `0x00` of the program is held (DESIGN CHOICE, safe: log 9). -/
def unlistedByte : Byte := 0x00#8

/-- The cells' addresses are at least `k` and strictly rise, and no cell holds `unlistedByte`. -/
def Memory.risesFrom (k : Nat) : Memory → Bool
  | [] => true
  | (addr, v) :: rest => decide (k ≤ addr) && v != unlistedByte && Memory.risesFrom (addr + 1) rest

/-- The canonical form, so that equal memories are equal data. -/
def Memory.wf (m : Memory) : Bool := m.risesFrom 0

/-- Every listed address is below `n`. -/
def Memory.below (n : Nat) (m : Memory) : Bool := m.all fun cell => decide (cell.1 < n)

/-- The byte at an address. -/
def Memory.read (m : Memory) (addr : Nat) : Byte :=
  match m with
  | [] => unlistedByte
  | (k, v) :: rest => if k = addr then v else Memory.read rest addr

/-- The cell `(addr, v)` before `rest`, left out when `v` is what an unlisted address reads as. -/
def Memory.consCell (addr : Nat) (v : Byte) (rest : Memory) : Memory :=
  if v = unlistedByte then rest else (addr, v) :: rest

/-- One byte placed at an address, keeping the canonical form. -/
def Memory.write (m : Memory) (addr : Nat) (v : Byte) : Memory :=
  match m with
  | [] => Memory.consCell addr v []
  | (k, w) :: rest =>
    if addr < k then Memory.consCell addr v ((k, w) :: rest)
    else if addr = k then Memory.consCell addr v rest
    else (k, w) :: Memory.write rest addr v

/-- R35: the "ordered sequence" of program bytes laid out from address `start`, entry 0 first. -/
def Memory.ofBytes (start : Nat) : List Byte → Memory
  | [] => []
  | v :: rest => Memory.consCell start v (Memory.ofBytes (start + 1) rest)

/-- R33: `MemRead(addr, 1)`, the program-store read: `prog[addr]` when `addr < L`, else `0x00`. It
never faults and changes nothing. -/
def State.memRead (s : State) (addr : Nibble) : Byte :=
  if addr.toNat < s.progLen.val then s.mem.read addr.toNat else 0x00#8

/-- The store is in canonical form and lists nothing at or above `L` (R38). -/
def State.storeWf (s : State) : Bool := s.mem.wf && s.mem.below s.progLen.val

end Sys2Proof.Machine
end

