-- ==== Sys2Proof/Machine/Operands.lean ====
section
/-! DEFINITION. What an instruction reads and writes: the accumulators (spec/10_state.md R14, R15),
the immediate (spec/30_encoding.md R48) and the input latch (spec/44_in_out.md R85). There are no
addressing modes (R91): which accumulator is used is part of the opcode (R45). -/

namespace Sys2Proof.Machine

/-- The two accumulators, "the whole of the general register file" (R24). -/
inductive Acc
  | a
  | b
  deriving DecidableEq, Repr

/-- Where a moved or output value comes from. -/
inductive Source
  | imm (v : Nibble)
  | acc (r : Acc)
  | port
  deriving DecidableEq, Repr

/-- Reading an accumulator (R14, R15). -/
def readAcc (r : Acc) (s : State) : Nibble :=
  match r with
  | .a => s.a
  | .b => s.b

/-- Writing an accumulator (R14, R15): `A <- v` or `B <- v`. -/
def writeAcc (r : Acc) (v : Nibble) (s : State) : State :=
  match r with
  | .a => { s with a := v }
  | .b => { s with b := v }

/-- R85: `PortRead()`, the current value of In; no side effect. -/
def portRead (s : State) : Nibble := s.inLatch

/-- The value of a source. -/
def readSource (src : Source) (s : State) : Nibble :=
  match src with
  | .imm v => v
  | .acc r => readAcc r s
  | .port => portRead s

end Sys2Proof.Machine
end

