-- ==== Sys2Proof/Machine/Ops.lean ====
section
/-! DEFINITION. The named operations the meanings and the step are made of. An operation that
combines several writes takes every value it needs from the state before (spec/00_scope.md R10,
spec/40_engine_step.md R57). -/

namespace Sys2Proof.Machine

/-! ## Single writes -/

/-- R10, R60: `inc4(v) = (v + 1) & 0xF`. The wrap from 15 to 0 is the spec's decision D1 (DEDUCED,
unsafe: log 1). -/
def inc4 (v : Nibble) : Nibble := v + 1#4

/-- `PC <- v`. -/
def setPC (v : Nibble) (s : State) : State := { s with pc := v }

/-- `C <- v`. -/
def setCarry (v : Bool) (s : State) : State := { s with c := v }

/-- `Run <- v` (R20). -/
def setRun (v : RunState) (s : State) : State := { s with run := v }

/-- R86: `PortWrite(v)`: `Out <- v`, and one output event carrying `v` at the end of the trace, also
when Out already holds `v`. -/
def portWrite (v : Nibble) (s : State) : State :=
  { s with outLatch := v, trace := s.trace ++ [v] }

/-! ## What the instruction families share -/

/-- `C <- false; PC <- inc4(PC)`: the end of every MOV, IN and OUT (R60, R61). -/
def clearAndAdvance (s : State) : State := setPC (inc4 s.pc) (setCarry clearedCarry s)

/-- MOV and IN (R71 to R74, R87, R88): an accumulator takes a source's value. -/
def moveTo (dst : Acc) (src : Source) (s : State) : State :=
  clearAndAdvance (writeAcc dst (readSource src s) s)

/-- OUT (R89, R90): a source's value goes to the port. -/
def outputFrom (src : Source) (s : State) : State :=
  clearAndAdvance (portWrite (readSource src s) s)

/-- ADD (R75, R76): accumulator plus immediate, the carry sticky. -/
def addTo (dst : Acc) (im : Nibble) (s : State) : State :=
  let sum := exactSum (readAcc dst s) im
  setPC (inc4 s.pc) (setCarry (stickyCarry s.c sum) (writeAcc dst (narrowSum sum) s))

/-- JMP (R80): the target becomes PC, with no increment; C is cleared. -/
def jumpTo (target : Nibble) (s : State) : State := setCarry clearedCarry (setPC target s)

/-- JNC (R81): the decision uses C before the Step; C is cleared on both paths. -/
def jumpIfNoCarry (target : Nibble) (s : State) : State :=
  if s.c = false then jumpTo target s else jumpTo (inc4 s.pc) s

/-! ## Taking the one exception -/

/-- R93, R100: `raise UnknownOpcode(PC, byte)`: Run becomes Halted and the fault is recorded; A, B,
C, PC, In, Out and the trace keep their values; nothing is saved and control goes nowhere. There is
no return from it (R101): no operation of this model makes a Halted engine Running, but for
construction. -/
def raiseUnknownOpcode (byte : Byte) (s : State) : State :=
  { s with run := .halted, fault := some (.unknownOpcode s.pc byte) }

/-! ## Around the transition -/

/-- R18, R41, decision D3: the host's move between Steps: any Nibble into In (log 3). -/
def hostWritesIn (v : Nibble) (s : State) : State := { s with inLatch := v }

/-- R7 (c): the host's move before a Step, as the input schedule has it; with nothing left in the
schedule In keeps its value (DESIGN CHOICE, unsafe: log 3). -/
def acceptInput (s : State) : State :=
  match s.inputs with
  | [] => s
  | v :: rest => { hostWritesIn v s with inputs := rest }

/-- R58: `byte = MemRead(PC, 1)`. -/
def fetch (s : State) : Byte := s.memRead s.pc

/-- R63: `if PC_new >= L then Run <- Halted else Run <- Running`. -/
def haltCheck (s : State) : State :=
  if s.progLen.val ≤ s.pc.toNat then setRun .halted s else setRun .running s

/-- R59, R99 (b): the end of a Step. The fault has already halted the engine and skips the halt
check; every other transition is followed by it. -/
def endStep (s : State) : State :=
  match s.run with
  | .halted => s
  | .running => haltCheck s

/-! ## Placing an instruction where the next step fetches -/

/-- The byte of an instruction whose low `nbits` bits are `w`; every bit above them is 0, and an
instruction is one byte (R53). -/
def tableByte (nbits w : Nat) : Byte := BitVec.ofNat 8 (w % 2 ^ nbits)

/-- The store with one byte at PC, long enough to hold it. -/
def placeAtPC (byte : Byte) (s : State) : State :=
  { s with
    mem := s.mem.write s.pc.toNat byte
    progLen := if s.pc.toNat < s.progLen.val then s.progLen else Fin.ofNat 17 (s.pc.toNat + 1) }

end Sys2Proof.Machine
end

