-- ==== Sys2Proof/Machine/Add.lean ====
section
/-! DEFINITION. The ADD family (spec/42_add.md): the only instructions that can set C. -/

namespace Sys2Proof.Machine

/-- R75: ADD A,im. -/
def execAddAIm (im : Nibble) (s : State) : Host.Outcome State Fault Refusal :=
  .next (addTo .a im s)

/-- R76: ADD B,im. -/
def execAddBIm (im : Nibble) (s : State) : Host.Outcome State Fault Refusal :=
  .next (addTo .b im s)

end Sys2Proof.Machine
end

