-- ==== Sys2Proof/Machine/InOut.lean ====
section
/-! DEFINITION. The IN and OUT family (spec/44_in_out.md). -/

namespace Sys2Proof.Machine

/-- R87: IN A. -/
def execInA (s : State) : Host.Outcome State Fault Refusal :=
  .next (moveTo .a .port s)

/-- R88: IN B. -/
def execInB (s : State) : Host.Outcome State Fault Refusal :=
  .next (moveTo .b .port s)

/-- R89: OUT B. -/
def execOutB (s : State) : Host.Outcome State Fault Refusal :=
  .next (outputFrom (.acc .b) s)

/-- R90: OUT im. -/
def execOutIm (im : Nibble) (s : State) : Host.Outcome State Fault Refusal :=
  .next (outputFrom (.imm im) s)

end Sys2Proof.Machine
end

