-- ==== Sys2Proof/Machine/Jump.lean ====
section
/-! DEFINITION. The jump family (spec/43_jump.md). -/

namespace Sys2Proof.Machine

/-- R80: JMP im. -/
def execJmpIm (im : Nibble) (s : State) : Host.Outcome State Fault Refusal :=
  .next (jumpTo im s)

/-- R81: JNC im. -/
def execJncIm (im : Nibble) (s : State) : Host.Outcome State Fault Refusal :=
  .next (jumpIfNoCarry im s)

end Sys2Proof.Machine
end

