-- ==== Sys2Proof/Machine/Mov.lean ====
section
/-! DEFINITION. The MOV family (spec/41_mov.md): MOV A,im; MOV B,im; MOV B,A; MOV A,B. -/

namespace Sys2Proof.Machine

/-- R71: MOV A,im. -/
def execMovAIm (im : Nibble) (s : State) : Host.Outcome State Fault Refusal :=
  .next (moveTo .a (.imm im) s)

/-- R72: MOV B,im. -/
def execMovBIm (im : Nibble) (s : State) : Host.Outcome State Fault Refusal :=
  .next (moveTo .b (.imm im) s)

/-- R73: MOV B,A, a plain copy. -/
def execMovBA (s : State) : Host.Outcome State Fault Refusal :=
  .next (moveTo .b (.acc .a) s)

/-- R74: MOV A,B, a plain copy. -/
def execMovAB (s : State) : Host.Outcome State Fault Refusal :=
  .next (moveTo .a (.acc .b) s)

end Sys2Proof.Machine
end

