-- ==== Sys2Proof/Machine/Unknown.lean ====
section
/-! DEFINITION. The four opcodes with no instruction (spec/30_encoding.md R50): each takes the
UnknownOpcode exception of spec/60_exceptions.md R93, whose record holds the fetched byte: the
opcode with the raw low nibble. -/

namespace Sys2Proof.Machine

/-- R93: opcode 1000. -/
def execUnknown1000 (raw : Nibble) (s : State) : Host.Outcome State Fault Refusal :=
  .next (raiseUnknownOpcode (joinNibbles 0b1000#4 raw) s)

/-- R93: opcode 1010. -/
def execUnknown1010 (raw : Nibble) (s : State) : Host.Outcome State Fault Refusal :=
  .next (raiseUnknownOpcode (joinNibbles 0b1010#4 raw) s)

/-- R93: opcode 1100. -/
def execUnknown1100 (raw : Nibble) (s : State) : Host.Outcome State Fault Refusal :=
  .next (raiseUnknownOpcode (joinNibbles 0b1100#4 raw) s)

/-- R93: opcode 1101. -/
def execUnknown1101 (raw : Nibble) (s : State) : Host.Outcome State Fault Refusal :=
  .next (raiseUnknownOpcode (joinNibbles 0b1101#4 raw) s)

end Sys2Proof.Machine
end

