-- ==== Sys2Proof/Machine/Dispatch.lean ====
section
/-! DEFINITION. Dispatch (spec/40_engine_step.md R59): one arm per row of the opcode table. -/

namespace Sys2Proof.Machine

def exec (i : Instr) (s : State) : Host.Outcome State Fault Refusal :=
  match i with
  | .addAIm im => Sys2Proof.Machine.execAddAIm im s
  | .movAB => Sys2Proof.Machine.execMovAB s
  | .inA => Sys2Proof.Machine.execInA s
  | .movAIm im => Sys2Proof.Machine.execMovAIm im s
  | .movBA => Sys2Proof.Machine.execMovBA s
  | .addBIm im => Sys2Proof.Machine.execAddBIm im s
  | .inB => Sys2Proof.Machine.execInB s
  | .movBIm im => Sys2Proof.Machine.execMovBIm im s
  | .unknown1000 raw => Sys2Proof.Machine.execUnknown1000 raw s
  | .outB => Sys2Proof.Machine.execOutB s
  | .unknown1010 raw => Sys2Proof.Machine.execUnknown1010 raw s
  | .outIm im => Sys2Proof.Machine.execOutIm im s
  | .unknown1100 raw => Sys2Proof.Machine.execUnknown1100 raw s
  | .unknown1101 raw => Sys2Proof.Machine.execUnknown1101 raw s
  | .jncIm im => Sys2Proof.Machine.execJncIm im s
  | .jmpIm im => Sys2Proof.Machine.execJmpIm im s

end Sys2Proof.Machine
end

