-- ==== Sys2Proof/Machine/Step.lean ====
section
/-! DEFINITION. One external clock tick (spec/40_engine_step.md R56, R57): a Step in state Running,
nothing in state Halted. -/

namespace Sys2Proof.Machine

/-- A tick, one atomic change (DEDUCED, safe: log 15). In state Halted it changes nothing (R56, R64;
DEDUCED, safe: log 8). In state Running the host's move on
In comes first, between Steps (R41); then the Step: fetch, decode, dispatch, halt check (R57). -/
def step (s : State) : Host.Outcome State Fault Refusal :=
  match s.run with
  | .halted => .next s
  | .running =>
    match exec (decode (fetch (acceptInput s))) (acceptInput s) with
    | .next t => .next (endStep t)
    | .fault r => .fault r
    | .refused r => .refused r

/-- `s` with the instruction whose low `nbits` bits are `w` (the others 0) at PC, inside the store,
and the engine Running: what the fetch needs (DESIGN CHOICE, unsafe: log 4). -/
def State.withFetchWord (s : State) (nbits w : Nat) : State :=
  setRun .running (placeAtPC (tableByte nbits w) s)

end Sys2Proof.Machine
end

