-- ==== Sys2Proof/Machine/Construct.lean ====
section
/-! DEFINITION. Construction, which is the machine's reset (spec/70_reset_and_hazards.md R109): the
host hands over a program store and gets an engine in the reset state, or a size-limit error. -/

namespace Sys2Proof.Machine

/-- R94: why no engine is built. -/
inductive ConstructionError
  /-- the store "exceeds 16 bytes"; raised by `State.construct`, before any machine exists -/
  | sizeLimit
  deriving DecidableEq, Repr

/-- R28, R94, R109: the engine built on the program store `prog`. A longer store than 16 bytes gives
no machine. -/
def State.construct (prog : List Byte) : Except ConstructionError State :=
  if h : prog.length ≤ Config.storeCapacity then
    .ok { State.reset with
      progLen := ⟨prog.length, Nat.lt_succ_of_le h⟩
      mem := Memory.ofBytes 0 prog }
  else
    .error .sizeLimit

end Sys2Proof.Machine
end

