-- ==== Sys2Proof/Machine/RuleStep.lean ====
section
/-! DEFINITION. The Step as spec/40_engine_step.md R69 writes it: "the whole next-state function" as
ONE case distinction on the opcode, over natural numbers, with its own arithmetic. It uses none of
the decoder and none of the operations the machine is made of, so that a statement can hold the
machine against it. -/

namespace Sys2Proof.Machine

/-- The variables of R69. -/
structure RuleState where
  A : Nat
  B : Nat
  C : Bool
  PC : Nat
  Out : Nat
  Run : RunState
  trace : List Nat
  fault : Option (Nat × Nat)
  deriving DecidableEq, Repr

/-- R69, from a state with `Run = Running`; `inp` is "the value of In seen by this Step", `prog` the
program store and `prog.length` its `L`. -/
def ruleStep (prog : List Nat) (inp : Nat) (q : RuleState) : RuleState :=
  let byte := if q.PC < prog.length then prog.getD q.PC 0 else 0
  let op := byte / 16
  let raw := byte % 16
  let im := if op = 1 ∨ op = 2 ∨ op = 4 ∨ op = 6 ∨ op = 9 then 0 else raw
  let next := (q.PC + 1) % 16
  let check (r : RuleState) : RuleState :=
    { r with Run := if r.PC ≥ prog.length then .halted else .running }
  match op with
  | 0 => check { q with A := (q.A + im) % 16, C := if q.A + im > 15 then true else q.C, PC := next }
  | 1 => check { q with A := q.B, C := false, PC := next }
  | 2 => check { q with A := inp, C := false, PC := next }
  | 3 => check { q with A := im, C := false, PC := next }
  | 4 => check { q with B := q.A, C := false, PC := next }
  | 5 => check { q with B := (q.B + im) % 16, C := if q.B + im > 15 then true else q.C, PC := next }
  | 6 => check { q with B := inp, C := false, PC := next }
  | 7 => check { q with B := im, C := false, PC := next }
  | 9 => check { q with Out := q.B, trace := q.trace ++ [q.B], C := false, PC := next }
  | 11 => check { q with Out := im, trace := q.trace ++ [im], C := false, PC := next }
  | 14 => check { q with PC := if q.C = false then im else next, C := false }
  | 15 => check { q with PC := im, C := false }
  | _ => { q with Run := .halted, fault := some (q.PC, byte) }

/-- A state's variables as R69 has them. -/
def State.toRule (s : State) : RuleState where
  A := s.a.toNat
  B := s.b.toNat
  C := s.c
  PC := s.pc.toNat
  Out := s.outLatch.toNat
  Run := s.run
  trace := s.trace.map (·.toNat)
  fault := s.fault.map fun f => match f with
    | .unknownOpcode pc byte => (pc.toNat, byte.toNat)

/-- `prog[0..L-1]` of a state, as numbers. -/
def State.progList (s : State) : List Nat :=
  (List.range s.progLen.val).map fun k => (s.mem.read k).toNat

end Sys2Proof.Machine
end

