-- ==== Sys2Proof/Machine/RunLoop.lean ====
section
/-! DEFINITION. The run loop (spec/40_engine_step.md R66 to R68): the engine driven by the two
external events it waits on. The host's choices (how many ticks, when to cancel, and which of a
pending tick and a pending cancellation comes first) are the list of events (decisions D5, D10;
DESIGN CHOICE, safe: log 12). -/

namespace Sys2Proof.Machine

/-- R66: the two events the engine waits on. -/
inductive HostEvent
  | tick
  | cancel
  deriving DecidableEq, Repr

/-- R68: how far a run has come. -/
inductive RunEnd
  /-- the run has ended: Run = Halted -/
  | halted (s : State)
  /-- the run has ended: the host cancelled between Steps; Run stays Running (R67) -/
  | cancelled (s : State)
  /-- the run has not ended: the loop waits for the next event -/
  | waiting (s : State)
  deriving DecidableEq, Repr

/-- The state of a run at that point. -/
def RunEnd.state : RunEnd → State
  | .halted s => s
  | .cancelled s => s
  | .waiting s => s

/-- R66: `loop: wait for the first of {tick, cancel}`. -/
def runLoop : List HostEvent → State → Host.Outcome RunEnd Fault Refusal
  | [], s => .next (.waiting s)
  | .cancel :: _, s => .next (.cancelled s)
  | .tick :: events, s =>
    match step s with
    | .next t =>
      match t.run with
      | .halted => .next (.halted t)
      | .running => runLoop events t
    | .fault r => .fault r
    | .refused r => .refused r

end Sys2Proof.Machine
end

