-- ==== Sys2Proof/Machine/Signals.lean ====
section
/-! DEFINITION. The block's output signals (spec/10_state.md R27), each a function of a state. The
names are the spec's own rendering (decision D7; DESIGN CHOICE, safe: log 13); no other definition reads them. The input
signals are the host's moves: `tick` is `step`, `construct` is `State.construct`, `cancel` is an event
of `runLoop`, and `in_port` is `State.inLatch`, written by `hostWritesIn`. -/

namespace Sys2Proof.Machine

/-- R27: what the block drives between Steps. -/
structure Signals where
  progAddr : Nibble
  progData : Byte
  progLen : BitVec 5
  outPort : Nibble
  halted : Bool
  fault : Bool
  deriving DecidableEq, Repr

/-- The signals in a state. `prog_addr` is PC, `prog_data` is `MemRead(PC, 1)`, `prog_len` is `L`. -/
def State.signals (s : State) : Signals where
  progAddr := s.pc
  progData := fetch s
  progLen := BitVec.ofNat 5 s.progLen.val
  outPort := s.outLatch
  halted := s.run == .halted
  fault := s.fault.isSome

/-- The instruction is OUT B or OUT im. -/
def isOut : Instr → Bool
  | .outB => true
  | .outIm _ => true
  | .addAIm _ => false
  | .movAB => false
  | .inA => false
  | .movAIm _ => false
  | .movBA => false
  | .addBIm _ => false
  | .inB => false
  | .movBIm _ => false
  | .unknown1000 _ => false
  | .unknown1010 _ => false
  | .unknown1100 _ => false
  | .unknown1101 _ => false
  | .jncIm _ => false
  | .jmpIm _ => false

/-- R27: `out_event` in the tick that starts in `s`: it "pulses in a Step that executes OUT B or OUT
im". -/
def State.outEvent (s : State) : Bool :=
  s.run == .running && isOut (decode (fetch s))

end Sys2Proof.Machine
end

