-- ==== Sys2Proof/Safety.lean ====
section
/-! DEFINITION. What a good state and a good run are, and the vocabulary the statements use. -/

namespace Sys2Proof.Machine

/-! ## Halting, normally and by the fault -/

/-- R96: a normal halt, with "no fault recorded". A faulted state is never a good final state
(spec/93_implementation_defined.md U1). -/
def State.haltedNormally (s : State) : Bool := s.run == .halted && s.fault == none

/-- R50: the four opcode values that match none of the twelve instructions. -/
def unknownOpcodeValue (op : Nibble) : Bool :=
  op == 0b1000#4 || op == 0b1010#4 || op == 0b1100#4 || op == 0b1101#4

/-- The instruction the next tick of a Running state runs. -/
def State.nextInstr (s : State) : Instr := decode (fetch (acceptInput s))

/-! ## The invariant -/

/-- R22: Out is the last event of the trace, or 0 when the trace is empty. -/
def outMatchesTrace (s : State) : Bool := s.outLatch == s.trace.getLast?.getD 0#4

/-- R29, R34: a Running engine's PC is inside the program store, but for the empty store before its
one Step. -/
def runningInBounds (s : State) : Bool :=
  s.run == .halted || decide (s.pc.toNat < s.progLen.val) ||
    (s.progLen.val == 0 && s.pc == 0#4)

/-- R93, R96, R100: a recorded fault is that of the byte PC still addresses, an unknown opcode inside
the program store, and the engine is Halted. -/
def faultIsPrecise (s : State) : Bool :=
  match s.fault with
  | none => true
  | some (.unknownOpcode pc byte) =>
    s.run == .halted && pc == s.pc && byte == s.memRead s.pc &&
      unknownOpcodeValue (highNibble byte) && decide (s.pc.toNat < s.progLen.val)

/-- What holds at construction and every step keeps. -/
def StateInv (s : State) : Prop :=
  s.storeWf = true ∧ outMatchesTrace s = true ∧ runningInBounds s = true ∧ faultIsPrecise s = true

/-! ## Frames -/

/-- The program store is the same: its length, its bytes, and what every address of the space reads
as. -/
def SameStore (s t : State) : Prop :=
  t.progLen = s.progLen ∧ t.mem = s.mem ∧ ∀ addr : Nibble, t.memRead addr = s.memRead addr

/-- The host's side of the port is the same: In, and what the host has yet to write. -/
def SameInput (s t : State) : Prop := t.inLatch = s.inLatch ∧ t.inputs = s.inputs

/-- The port's output side is the same: Out, and no new event. -/
def SameOutput (s t : State) : Prop := t.outLatch = s.outLatch ∧ t.trace = s.trace

/-- The engine's status is the same: Run and the fault record. -/
def SameStatus (s t : State) : Prop := t.run = s.run ∧ t.fault = s.fault

/-- Everything outside A, B, C and PC is the same. -/
def SameOutside (s t : State) : Prop :=
  SameStore s t ∧ SameInput s t ∧ SameOutput s t ∧ SameStatus s t

/-! ## Runs -/

/-- `k` ticks, stopping at the first fault or refusal: the host's `Host.Core.run` of this machine
(lemma `ticks_eq_run`). -/
def ticks : Nat → State → Host.Outcome State Fault Refusal
  | 0, s => .next s
  | k + 1, s =>
    match step s with
    | .next t => ticks k t
    | .fault r => .fault r
    | .refused r => .refused r

/-- The instructions of a list carried out one after another, without fetch and halt check. -/
def execAll : List Instr → State → Host.Outcome State Fault Refusal
  | [], s => .next s
  | i :: rest, s =>
    match exec i s with
    | .next t => execAll rest t
    | .fault r => .fault r
    | .refused r => .refused r

/-- The instruction is an ADD (R61). -/
def isAdd : Instr → Bool
  | .addAIm _ => true
  | .addBIm _ => true
  | .movAB => false
  | .inA => false
  | .movAIm _ => false
  | .movBA => false
  | .inB => false
  | .movBIm _ => false
  | .unknown1000 _ => false
  | .outB => false
  | .unknown1010 _ => false
  | .outIm _ => false
  | .unknown1100 _ => false
  | .unknown1101 _ => false
  | .jncIm _ => false
  | .jmpIm _ => false

/-- Where a jump that is taken goes: JMP always (R80), JNC when C is false (R81). -/
def takenTarget (i : Instr) (s : State) : Option Nibble :=
  match i with
  | .jmpIm im => some im
  | .jncIm im => if s.c = false then some im else none
  | .addAIm _ => none
  | .movAB => none
  | .inA => none
  | .movAIm _ => none
  | .movBA => none
  | .addBIm _ => none
  | .inB => none
  | .movBIm _ => none
  | .unknown1000 _ => none
  | .outB => none
  | .unknown1010 _ => none
  | .outIm _ => none
  | .unknown1100 _ => none
  | .unknown1101 _ => none

/-- The instruction is an ADD whose exact sum is above 15 in this state (R75, R76). -/
def overflows (i : Instr) (s : State) : Bool :=
  match i with
  | .addAIm im => decide (s.a.toNat + im.toNat > 15)
  | .addBIm im => decide (s.b.toNat + im.toNat > 15)
  | .movAB => false
  | .inA => false
  | .movAIm _ => false
  | .movBA => false
  | .inB => false
  | .movBIm _ => false
  | .unknown1000 _ => false
  | .outB => false
  | .unknown1010 _ => false
  | .outIm _ => false
  | .unknown1100 _ => false
  | .unknown1101 _ => false
  | .jncIm _ => false
  | .jmpIm _ => false

/-- No byte of the address space is IN A or IN B. -/
def NoInput (s : State) : Prop :=
  ∀ addr : Nibble, decode (s.memRead addr) ≠ .inA ∧ decode (s.memRead addr) ≠ .inB

/-- In is constant from this state on, as far as the host goes: every value the host has yet to write
is the one In holds, and past the schedule's end the model's host writes nothing (DESIGN CHOICE,
unsafe: log 3). -/
def ConstantIn (s : State) : Prop := ∀ v ∈ s.inputs, v = s.inLatch

/-- Two states agree on what R118 says determines the future: A, B, C, PC, with the program store and
Run, which gates the Step. -/
def SameCore (s t : State) : Prop :=
  s.a = t.a ∧ s.b = t.b ∧ s.c = t.c ∧ s.pc = t.pc ∧ s.run = t.run ∧
    s.progLen = t.progLen ∧ s.mem = t.mem

end Sys2Proof.Machine
end

