-- ==== Sys2Proof/Certificates/Slice0/Obligations.lean ====
section
/-! DEFINITION. The statements for the provers. OBLIGATIONS.json says of each what it rests on. Where
a docstring names a decision D<n> of spec/92_eei_decisions.md, or a sentence the spec marks
`[derived: …]`, that clause is the spec's own choice or inference and the named log entry holds it. `inc4` is the
spec's primitive of R10: that it wraps from 15 to 0 is decision D1 (log 1), which
`ProgramCounterAdvance` states and the instructions' own statements leave inside `inc4`. -/

open Sys2Proof Sys2Proof.Machine

/-! ## Construction and the program store -/

/-- The state after construction, for every program store of at most 16 bytes: the table "Reset
values". Run is Running also for the empty store by decision D2 (log 2); the empty trace represents
the events by decision D4 (log 7); no fault recorded and an empty input schedule are the model's
(log 6, log 3). `State.reset` is the engine built on the empty store (log 4). -/
def Obligations.ConstructionGivesResetValues : Prop :=
  State.construct [] = .ok State.reset ∧
  ∀ prog : List Byte, prog.length ≤ 16 →
    ∃ s, State.construct prog = .ok s ∧
      s.a.toNat = 0 ∧ s.b.toNat = 0 ∧ s.c = false ∧ s.pc.toNat = 0 ∧
      s.inLatch.toNat = 0 ∧ s.outLatch.toNat = 0 ∧ s.run = .running ∧ s.trace = [] ∧
      s.fault = none ∧ s.inputs = [] ∧ s.progLen.val = prog.length

/-- R94: a store of more than 16 bytes gives a size-limit error and no engine; every other store,
of 0 and of 16 bytes too, gives an engine. -/
def Obligations.ConstructionRefusesLongStores : Prop :=
  ∀ prog : List Byte,
    (16 < prog.length → State.construct prog = .error .sizeLimit) ∧
    (prog.length ≤ 16 → ∃ s, State.construct prog = .ok s)

/-- R33: `MemRead(addr, 1)` is `prog[addr]` when `addr < L` and `0x00` otherwise, for the store the
engine was built with and every address. -/
def Obligations.MemReadFollowsProgramStore : Prop :=
  ∀ (prog : List Byte) (s : State), State.construct prog = .ok s →
    ∀ addr : Nibble,
      (∀ h : addr.toNat < prog.length, s.memRead addr = prog[addr.toNat]) ∧
      (prog.length ≤ addr.toNat → s.memRead addr = 0x00#8)

/-- The invariant holds in every engine that construction gives, and in the reset state. -/
def Obligations.ConstructionEstablishesInvariant : Prop :=
  ∀ (prog : List Byte) (s : State), State.construct prog = .ok s → StateInv s

/-- The invariant holds in the reset state. -/
def Obligations.ResetMeetsInvariant : Prop := StateInv State.reset

/-- Every step keeps the invariant: the program store stays canonical and within its length, Out is
the trace's last event (a sentence of 10_state.md marked derived), a Running engine's PC is in the
store but for the empty store before its one Step (marked derived; decision D2, log 2), and a
recorded fault (decision D6, log 6) is that of the unknown opcode PC still addresses, in a Halted
engine. -/
def Obligations.StepKeepsInvariant : Prop :=
  ∀ s t : State, StateInv s → Sys2Proof.Machine.step s = .next t → StateInv t

/-! ## Encoding and decoding -/

/-- R45: every byte is opcode * 16 + operand, the opcode being its high nibble, and so is every
encoded instruction with its own opcode and operand. -/
def Obligations.ByteIsOpcodeTimesSixteenPlusOperand : Prop :=
  (∀ b : Byte, b.toNat = (highNibble b).toNat * 16 + (lowNibble b).toNat) ∧
  ∀ i : Instr, (encode i).toNat = (opcodeOf i).toNat * 16 + (operandOf i).toNat

/-- R46: the decoder's pair, in the document's arithmetic (`byte >> 4`, `byte & 0xF`), the operand
forced to 0 for the five opcodes. -/
def Obligations.DecodeFieldsAsTheRuleComputes : Prop :=
  ∀ b : Byte,
    (decodeFields b).1.toNat = b.toNat >>> 4 ∧
    (decodeFields b).2.toNat =
      if b.toNat >>> 4 = 0b0001 ∨ b.toNat >>> 4 = 0b0010 ∨ b.toNat >>> 4 = 0b0100 ∨
        b.toNat >>> 4 = 0b0110 ∨ b.toNat >>> 4 = 0b1001 then 0 else b.toNat &&& 0xF

/-- R49: the opcode map, one clause per row; `n` is the row's low nibble, all sixteen values. -/
def Obligations.OpcodeMapRowByRow : Prop :=
  ∀ n : Nibble,
    decode (0x00#8 + n.setWidth 8) = .addAIm n ∧
    decode (0x10#8 + n.setWidth 8) = .movAB ∧
    decode (0x20#8 + n.setWidth 8) = .inA ∧
    decode (0x30#8 + n.setWidth 8) = .movAIm n ∧
    decode (0x40#8 + n.setWidth 8) = .movBA ∧
    decode (0x50#8 + n.setWidth 8) = .addBIm n ∧
    decode (0x60#8 + n.setWidth 8) = .inB ∧
    decode (0x70#8 + n.setWidth 8) = .movBIm n ∧
    decode (0x80#8 + n.setWidth 8) = .unknown1000 n ∧
    decode (0x90#8 + n.setWidth 8) = .outB ∧
    decode (0xA0#8 + n.setWidth 8) = .unknown1010 n ∧
    decode (0xB0#8 + n.setWidth 8) = .outIm n ∧
    decode (0xC0#8 + n.setWidth 8) = .unknown1100 n ∧
    decode (0xD0#8 + n.setWidth 8) = .unknown1101 n ∧
    decode (0xE0#8 + n.setWidth 8) = .jncIm n ∧
    decode (0xF0#8 + n.setWidth 8) = .jmpIm n

/-- Words written out from the spec's encodings and its decoder vectors, one per family and two of
them with don't-care bits set. -/
def Obligations.SpecWordsDecode : Prop :=
  decode 0b00110101#8 = .movAIm 5 ∧ decode 0b01000111#8 = .movBA ∧
  decode 0b00001101#8 = .addAIm 13 ∧ decode 0b01011100#8 = .addBIm 12 ∧
  decode 0b11100101#8 = .jncIm 5 ∧ decode 0b11111111#8 = .jmpIm 15 ∧
  decode 0b01101010#8 = .inB ∧ decode 0b10110111#8 = .outIm 7 ∧
  decode 0b10100101#8 = .unknown1010 5

/-- Decoding what the encoder writes gives the instruction back, every operand at every value. -/
def Obligations.DecodeOfEncodeIsIdentity : Prop :=
  ∀ i : Instr, decode (encode i) = i

/-! ## The MOV family -/

/-- R71: MOV A,im. -/
def Obligations.MovAImLoadsImmediate : Prop :=
  ∀ (im : Nibble) (s : State), decode (0x30#8 + im.setWidth 8) = .movAIm im ∧
    ∃ t, exec (.movAIm im) s = .next t ∧
      t.a = im ∧ t.b = s.b ∧ t.c = false ∧ t.pc = inc4 s.pc ∧ SameOutside s t

/-- R72: MOV B,im. -/
def Obligations.MovBImLoadsImmediate : Prop :=
  ∀ (im : Nibble) (s : State), decode (0x70#8 + im.setWidth 8) = .movBIm im ∧
    ∃ t, exec (.movBIm im) s = .next t ∧
      t.b = im ∧ t.a = s.a ∧ t.c = false ∧ t.pc = inc4 s.pc ∧ SameOutside s t

/-- R73: MOV B,A; `n` is the don't-care nibble. -/
def Obligations.MovBACopiesA : Prop :=
  ∀ (n : Nibble) (s : State), decode (0x40#8 + n.setWidth 8) = .movBA ∧
    ∃ t, exec .movBA s = .next t ∧
      t.b = s.a ∧ t.a = s.a ∧ t.c = false ∧ t.pc = inc4 s.pc ∧ SameOutside s t

/-- R74: MOV A,B; `n` is the don't-care nibble. -/
def Obligations.MovABCopiesB : Prop :=
  ∀ (n : Nibble) (s : State), decode (0x10#8 + n.setWidth 8) = .movAB ∧
    ∃ t, exec .movAB s = .next t ∧
      t.a = s.b ∧ t.b = s.b ∧ t.c = false ∧ t.pc = inc4 s.pc ∧ SameOutside s t

/-! ## The ADD family -/

/-- R75: ADD A,im. -/
def Obligations.AddAImAddsWithStickyCarry : Prop :=
  ∀ (im : Nibble) (s : State), decode (0x00#8 + im.setWidth 8) = .addAIm im ∧
    ∃ t, exec (.addAIm im) s = .next t ∧
      t.a.toNat = (s.a.toNat + im.toNat) % 16 ∧
      t.c = (if s.a.toNat + im.toNat > 15 then true else s.c) ∧
      t.b = s.b ∧ t.pc = inc4 s.pc ∧ SameOutside s t

/-- R76: ADD B,im. -/
def Obligations.AddBImAddsWithStickyCarry : Prop :=
  ∀ (im : Nibble) (s : State), decode (0x50#8 + im.setWidth 8) = .addBIm im ∧
    ∃ t, exec (.addBIm im) s = .next t ∧
      t.b.toNat = (s.b.toNat + im.toNat) % 16 ∧
      t.c = (if s.b.toNat + im.toNat > 15 then true else s.c) ∧
      t.a = s.a ∧ t.pc = inc4 s.pc ∧ SameOutside s t

/-- 42_add.md, a sentence marked derived: "Addition of 16 - n acts as subtraction of n modulo 16 for
1 <= n <= 15 … and it sets C exactly when x >= n". Setting C is seen when C was false before. -/
def Obligations.AddingComplementSubtracts : Prop :=
  ∀ (n : Nat) (s : State), 1 ≤ n → n ≤ 15 →
    (∃ t, exec (.addAIm (BitVec.ofNat 4 (16 - n))) s = .next t ∧
      t.a = s.a - BitVec.ofNat 4 n ∧ t.c = (s.c || decide (n ≤ s.a.toNat))) ∧
    (∃ t, exec (.addBIm (BitVec.ofNat 4 (16 - n))) s = .next t ∧
      t.b = s.b - BitVec.ofNat 4 n ∧ t.c = (s.c || decide (n ≤ s.b.toNat)))

/-! ## The jump family -/

/-- R80: JMP im, the transition, and the whole Step of a Running engine whose next instruction it is:
it halts in this same Step exactly when `im >= L`, with PC = im. -/
def Obligations.JmpSetsPC : Prop :=
  ∀ (im : Nibble) (s : State), decode (0xF0#8 + im.setWidth 8) = .jmpIm im ∧
    (∃ t, exec (.jmpIm im) s = .next t ∧
      t.pc = im ∧ t.c = false ∧ t.a = s.a ∧ t.b = s.b ∧ SameOutside s t) ∧
    (s.run = .running → s.nextInstr = .jmpIm im →
      ∃ t, step s = .next t ∧ t.pc = im ∧ t.c = false ∧
        t.run = (if s.progLen.val ≤ im.toNat then .halted else .running))

/-- R81: JNC im, the transition, and the whole Step of a Running engine whose next instruction it
is. -/
def Obligations.JncJumpsWhenCarryClear : Prop :=
  ∀ (im : Nibble) (s : State), decode (0xE0#8 + im.setWidth 8) = .jncIm im ∧
    (∃ t, exec (.jncIm im) s = .next t ∧
      t.pc = (if s.c = false then im else inc4 s.pc) ∧ t.c = false ∧
      t.a = s.a ∧ t.b = s.b ∧ SameOutside s t) ∧
    (s.run = .running → s.nextInstr = .jncIm im →
      ∃ t, step s = .next t ∧ t.c = false ∧
        t.pc = (if s.c = false then im else inc4 s.pc) ∧
        t.run = (if s.progLen.val ≤ (if s.c = false then im else inc4 s.pc).toNat
          then .halted else .running))

/-! ## The IN and OUT family -/

/-- R87: IN A; `n` is the don't-care nibble. In is 0 until the host writes it. -/
def Obligations.InAReadsPort : Prop :=
  State.reset.inLatch = 0#4 ∧
  ∀ (n : Nibble) (s : State), decode (0x20#8 + n.setWidth 8) = .inA ∧
    ∃ t, exec .inA s = .next t ∧
      t.a = s.inLatch ∧ t.b = s.b ∧ t.c = false ∧ t.pc = inc4 s.pc ∧ SameOutside s t

/-- R88: IN B; `n` is the don't-care nibble. -/
def Obligations.InBReadsPort : Prop :=
  ∀ (n : Nibble) (s : State), decode (0x60#8 + n.setWidth 8) = .inB ∧
    ∃ t, exec .inB s = .next t ∧
      t.b = s.inLatch ∧ t.a = s.a ∧ t.c = false ∧ t.pc = inc4 s.pc ∧ SameOutside s t

/-- R89: OUT B; `n` is the don't-care nibble. As the program's last instruction it still emits, and
the engine halts in the same Step. (The list of events represents them by decision D4, log 7.) -/
def Obligations.OutBWritesPortAndEmits : Prop :=
  ∀ (n : Nibble) (s : State), decode (0x90#8 + n.setWidth 8) = .outB ∧
    (∃ t, exec .outB s = .next t ∧
      t.outLatch = s.b ∧ t.trace = s.trace ++ [s.b] ∧ t.a = s.a ∧ t.b = s.b ∧
      t.c = false ∧ t.pc = inc4 s.pc ∧ SameStore s t ∧ SameInput s t ∧ SameStatus s t) ∧
    (s.run = .running → s.nextInstr = .outB → s.progLen.val ≤ (inc4 s.pc).toNat →
      ∃ t, step s = .next t ∧ t.outLatch = s.b ∧ t.trace = s.trace ++ [s.b] ∧ t.run = .halted)

/-- R90: OUT im. The event is emitted whatever Out held before. (The list of events represents them by
decision D4, log 7.) -/
def Obligations.OutImWritesPortAndEmits : Prop :=
  ∀ (im : Nibble) (s : State), decode (0xB0#8 + im.setWidth 8) = .outIm im ∧
    ∃ t, exec (.outIm im) s = .next t ∧
      t.outLatch = im ∧ t.trace = s.trace ++ [im] ∧ t.a = s.a ∧ t.b = s.b ∧
      t.c = false ∧ t.pc = inc4 s.pc ∧ SameStore s t ∧ SameInput s t ∧ SameStatus s t

/-! ## The unknown-opcode fault -/

/-- R93: each of the four unknown opcodes, whatever its low nibble, takes the fault: Run becomes
Halted and A, B, C, PC, In, Out and the events are unchanged; and in the whole Step of a Running
engine no halt check changes that. What is recorded beside the state is another statement's. -/
def Obligations.UnknownOpcodeHaltsWithoutOtherChange : Prop :=
  (∀ (raw : Nibble) (s : State) (i : Instr),
    i = .unknown1000 raw ∨ i = .unknown1010 raw ∨ i = .unknown1100 raw ∨ i = .unknown1101 raw →
    ∃ t, exec i s = .next t ∧ t.run = .halted ∧
      t.a = s.a ∧ t.b = s.b ∧ t.c = s.c ∧ t.pc = s.pc ∧
      SameOutput s t ∧ SameInput s t ∧ SameStore s t) ∧
  ∀ s : State, s.run = .running → unknownOpcodeValue (highNibble (s.memRead s.pc)) = true →
    ∃ t, step s = .next t ∧ t.run = .halted ∧
      t.a = s.a ∧ t.b = s.b ∧ t.c = s.c ∧ t.pc = s.pc ∧ SameOutput s t ∧ SameStore s t

/-- The record (decision D6, log 6): the fault enumeration's one member with PC at the fault and the
fetched byte. A Step records one exactly when its byte is none of the twelve instructions, and
otherwise leaves the record alone. -/
def Obligations.FaultRecordHoldsPCAndFetchedByte : Prop :=
  ∀ s : State, s.run = .running →
    ∃ t, step s = .next t ∧
      t.fault = (if s.nextInstr.wellFormed then s.fault
        else some (.unknownOpcode s.pc (s.memRead s.pc)))

/-- R100, R101: the fault is precise and final. The faulting instruction has changed nothing but Run
(and the record), PC still addresses it, and no number of further ticks changes anything. (Before the Step the host's value came into In:
decision D3, log 3.) -/
def Obligations.FaultIsPreciseAndFinal : Prop :=
  ∀ s : State, s.run = .running → s.nextInstr.wellFormed = false →
    ∃ t, step s = .next t ∧
      t = { acceptInput s with run := .halted, fault := t.fault } ∧
      s.memRead t.pc = s.memRead s.pc ∧
      ∀ k, ticks k t = .next t

/-- R95: there is no other exception. Every tick of every state answers a next state, and the engine
records a fault in it only for a fetched opcode that is one of the four; a halt without one records
none. (The record is decision D6, log 6.) -/
def Obligations.NoOtherExceptionExists : Prop :=
  ∀ s : State, ∃ t, step s = .next t ∧
    (t.fault ≠ s.fault →
      s.run = .running ∧ t.run = .halted ∧
        unknownOpcodeValue (highNibble (s.memRead s.pc)) = true)

/-! ## The carry, the program counter and the halt check -/

/-- R61: the carry policy, every instruction. -/
def Obligations.CarryPolicyOfEveryInstruction : Prop :=
  ∀ (i : Instr) (s : State), ∃ t, exec i s = .next t ∧
    t.c = (if isAdd i then (if overflows i s then true else s.c)
      else if i.wellFormed then false else s.c)

/-- 40_engine_step.md, 2: how every instruction moves PC. That the increment wraps from 15 to 0 is
the spec's decision D1 (log 1). -/
def Obligations.ProgramCounterAdvance : Prop :=
  ∀ (i : Instr) (s : State), ∃ t, exec i s = .next t ∧
    t.pc.toNat =
      match takenTarget i s with
      | some target => target.toNat
      | none => if i.wellFormed then (s.pc.toNat + 1) % 16 else s.pc.toNat

/-- A sentence of 43_jump.md and 40_engine_step.md marked derived: when JNC sees C = true. From a
state with C false (after reset, or after a non-ADD instruction), and over any sequence of the
twelve instructions, C is true afterwards exactly when the sequence ends in a run of ADDs that begins
with one that overflowed. -/
def Obligations.CarryIsSetByTheLastRunOfAdds : Prop :=
  ∀ (is : List Instr) (s : State), s.c = false → (∀ i ∈ is, i.wellFormed = true) →
    ∃ t, execAll is s = .next t ∧
      (t.c = true ↔
        ∃ (before : List Instr) (i : Instr) (after : List Instr) (u : State),
          is = before ++ i :: after ∧ (∀ j ∈ after, isAdd j = true) ∧
          execAll before s = .next u ∧ overflows i u = true)

/-- The halt check of 40_engine_step.md, 4: after each of the twelve transitions, and at no other
time (decision D2, log 2: not before the first Step), Run becomes Halted when the new PC is at or past
`L`, and Running otherwise; the check changes nothing else. -/
def Obligations.HaltCheckAfterEveryTransition : Prop :=
  ∀ s : State, s.run = .running → s.nextInstr.wellFormed = true →
    ∃ u, exec s.nextInstr (acceptInput s) = .next u ∧
      step s = .next { u with
        run := if u.pc.toNat ≥ s.progLen.val then .halted else .running }

/-- "The complete list of ways the engine reaches Halted" (40_engine_step.md, 4, marked derived), for
states of the invariant: run-off, jump out, unknown opcode, and the empty program (decision D2,
log 2). -/
def Obligations.WaysToReachHalted : Prop :=
  ∀ s : State, StateInv s → s.run = .running →
    ∃ t, step s = .next t ∧
      (t.run = .halted ↔
        (s.nextInstr.wellFormed = true ∧ takenTarget s.nextInstr s = none ∧
          1 ≤ s.progLen.val ∧ s.progLen.val ≤ 15 ∧ s.pc.toNat + 1 = s.progLen.val ∧
          t.pc.toNat = s.progLen.val) ∨
        (∃ target, takenTarget s.nextInstr s = some target ∧ s.progLen.val ≤ target.toNat ∧
          t.pc = target) ∨
        (s.nextInstr.wellFormed = false ∧ t.pc = s.pc) ∨
        (s.progLen.val = 0 ∧ t.pc.toNat = 1))

/-! ## The Step -/

/-- A tick of a Running engine runs the instruction that the byte at PC decodes to. Around it stand
the host's move on In before the Step (decision D3, log 3), spelled out, and the end of the Step,
spelled out: the halt check, skipped when the transition was the fault. -/
def Obligations.StepRunsTheDecodedInstruction : Prop :=
  ∀ (s : State) (i : Instr), s.run = .running → decode (s.memRead s.pc) = i →
    acceptInput s = { s with
      inLatch := s.inputs.head?.getD s.inLatch, inputs := s.inputs.tail } ∧
    ∃ u, exec i (acceptInput s) = .next u ∧ step s = .next (endStep u) ∧
      endStep u = (if u.run = .halted then u
        else { u with run := if u.progLen.val ≤ u.pc.toNat then .halted else .running })

/-- 40_engine_step.md, 6, the whole next-state function: a tick of a Running engine does to A, B, C,
PC, Out, Run, the trace and the fault exactly what the spec's one case distinction does, which
`ruleStep` writes over natural numbers; In and the store are as the Step found them. The wrap of PC is
decision D1 (log 1), the one Step of the empty store D2 (log 2), the value of In D3 (log 3), the list
of events D4 (log 7), the fault record D6 (log 6). -/
def Obligations.StepEqualsWholeNextStateFunction : Prop :=
  ∀ s : State, s.run = .running →
    ∃ t, step s = .next t ∧
      t.toRule = ruleStep s.progList (s.inputs.head?.getD s.inLatch).toNat s.toRule ∧
      t.inLatch = s.inputs.head?.getD s.inLatch ∧ SameStore s t

/-- R64: Halted is terminal. However many ticks arrive, every element keeps its value; a value the
host still writes to In has no effect on anything. -/
def Obligations.HaltedIsTerminal : Prop :=
  ∀ s : State, s.run = .halted → ∀ k : Nat,
    ticks k s = .next s ∧
    ∀ v : Nibble, ticks k (hostWritesIn v s) = .next (hostWritesIn v s)

/-- 20_memory.md, 2, marked derived, and decision D2 (log 2): with an empty program store one Step
runs, on the byte 0x00; it moves PC and halts, and changes nothing else. -/
def Obligations.EmptyStoreTakesOneHarmlessStep : Prop :=
  ∀ s : State, s.progLen.val = 0 → s.run = .running →
    step s = .next { acceptInput s with pc := inc4 s.pc, run := .halted }

/-- R52: the byte 0x00 is ADD A,0; it is what a fetch outside the store returns; it changes PC and
nothing else, C too being unchanged, which no non-ADD instruction of the twelve does: they clear C. -/
def Obligations.ZeroByteOnlyAdvancesPC : Prop :=
  decode 0x00#8 = .addAIm 0#4 ∧
  (∀ (s : State) (addr : Nibble), s.progLen.val ≤ addr.toNat → s.memRead addr = 0x00#8) ∧
  (∀ s : State, exec (decode 0x00#8) s = .next { s with pc := inc4 s.pc }) ∧
  ∀ (i : Instr) (s : State), i.wellFormed = true → isAdd i = false →
    ∃ t, exec i s = .next t ∧ t.c = false

/-! ## Who reads and writes what -/

/-- R21: the program store is immutable: no number of ticks changes its length or a byte of it. -/
def Obligations.ProgramStoreIsImmutable : Prop :=
  ∀ (k : Nat) (s : State), ∃ t, ticks k s = .next t ∧ SameStore s t

/-- R32: no instruction writes memory, and none reads memory as data: carried out over another store,
an instruction gives the same state with that other store. -/
def Obligations.NoInstructionTouchesMemory : Prop :=
  ∀ (i : Instr) (s : State), ∃ t, exec i s = .next t ∧ SameStore s t ∧
    ∀ (m : Memory) (n : StoreLength),
      exec i { s with mem := m, progLen := n } = .next { t with mem := m, progLen := n }

/-- R19: Out resets to 0, only OUT B and OUT im write it, no instruction reads it, and it holds its
value between OUT instructions and in state Halted. -/
def Obligations.OnlyOutInstructionsWriteOut : Prop :=
  State.reset.outLatch = 0#4 ∧
  (∀ (i : Instr) (s : State), ∃ t, exec i s = .next t ∧
    (isOut i = false → SameOutput s t ∧
      ∀ v, exec i { s with outLatch := v } = .next { t with outLatch := v }) ∧
    (isOut i = true → ∀ v, exec i { s with outLatch := v } = .next t)) ∧
  ∀ s : State, s.run = .halted → ∃ t, step s = .next t ∧ t.outLatch = s.outLatch

/-- R20: Run is Running initially; no instruction of the twelve reads or writes it; a tick takes it
only from Running to Halted, never back. -/
def Obligations.RunOnlyGoesFromRunningToHalted : Prop :=
  State.reset.run = .running ∧
  (∀ (i : Instr) (s : State), i.wellFormed = true →
    ∃ t, exec i s = .next t ∧ t.run = s.run ∧
      ∀ r, exec i { s with run := r } = .next { t with run := r }) ∧
  ∀ (k : Nat) (s : State), s.run = .halted → ∃ t, ticks k s = .next t ∧ t.run = .halted

/-- The readers of the access table (10_state.md, 8): a value of A, B, C or In that an instruction is
not listed as reading has no effect on any other element. (An ADD keeps C, which is its C column, not
a read.) -/
def Obligations.OnlyListedInstructionsRead : Prop :=
  ∀ (i : Instr) (s : State), ∃ t, exec i s = .next t ∧
    (i ≠ .movBA → (∀ im, i ≠ .addAIm im) →
      ∀ v, ∃ u, exec i { s with a := v } = .next u ∧ { u with a := t.a } = t) ∧
    (i ≠ .movAB → (∀ im, i ≠ .addBIm im) → i ≠ .outB →
      ∀ v, ∃ u, exec i { s with b := v } = .next u ∧ { u with b := t.b } = t) ∧
    ((∀ im, i ≠ .jncIm im) →
      ∀ v, ∃ u, exec i { s with c := v } = .next u ∧ { u with c := t.c } = t) ∧
    (i ≠ .inA → i ≠ .inB →
      ∀ v, ∃ u, exec i { s with inLatch := v } = .next u ∧ { u with inLatch := t.inLatch } = t)

/-- The writers of the access table (10_state.md, 8), and the frame of every instruction at once: A,
B, the port, the status, the host's side and the store are as they were but for the listed writers. -/
def Obligations.OnlyListedInstructionsWrite : Prop :=
  ∀ (i : Instr) (s : State), ∃ t, exec i s = .next t ∧
    ((∀ im, i ≠ .movAIm im) → i ≠ .movAB → (∀ im, i ≠ .addAIm im) → i ≠ .inA → t.a = s.a) ∧
    ((∀ im, i ≠ .movBIm im) → i ≠ .movBA → (∀ im, i ≠ .addBIm im) → i ≠ .inB → t.b = s.b) ∧
    (isOut i = false → SameOutput s t) ∧
    (i.wellFormed = true → SameStatus s t) ∧
    (i.wellFormed = false → t.c = s.c ∧ t.pc = s.pc) ∧
    SameInput s t ∧ SameStore s t

/-- The input latch (10_state.md, 5; 20_memory.md, 5; decision D3, log 3): no instruction writes it; a
Step sees the value the host has for it, in the model the next one of the schedule, and the value
stays until the host writes again. -/
def Obligations.InputLatchFollowsTheHost : Prop :=
  ∀ s : State, s.run = .running →
    ∃ t, step s = .next t ∧ t.inLatch = s.inputs.head?.getD s.inLatch ∧
      t.inputs = s.inputs.tail ∧
      (s.nextInstr = .inA → t.a = t.inLatch) ∧ (s.nextInstr = .inB → t.b = t.inLatch)

/-- The output trace (10_state.md, 7; decision D4, log 7): nothing removes an event, and a tick
appends at most one. -/
def Obligations.TraceOnlyGrows : Prop :=
  ∀ (k : Nat) (s : State), ∃ t, ticks k s = .next t ∧
    ∃ events : List Nibble, t.trace = s.trace ++ events ∧ events.length ≤ k

/-- The signal `out_event` (10_state.md, 9; decision D7, log 13): it pulses in a tick exactly when an
event is appended, and the event is the value Out then holds. -/
def Obligations.OutEventPulsesWithTheTrace : Prop :=
  ∀ s : State, ∃ t, step s = .next t ∧
    (s.outEvent = true → t.trace = s.trace ++ [t.outLatch]) ∧
    (s.outEvent = false → t.trace = s.trace ∧ t.outLatch = s.outLatch)

/-! ## Runs -/

/-- R98: cancellation saves nothing, changes no state and runs no handler: a run that is cancelled
next ends in the very state it was in, whatever is still pending. -/
def Obligations.CancellationChangesNoState : Prop :=
  ∀ (s : State) (pending : List HostEvent), runLoop (.cancel :: pending) s = .next (.cancelled s)

/-- 40_engine_step.md, 5; decisions D5 and D10 (log 12): "for a run from reset the reachable end
states are exactly the states after n Steps for every n >= 0, cut short by Halted", here from any
Running state. -/
def Obligations.RunEndsAfterTicksOrHalted : Prop :=
  ∀ (k : Nat) (s : State), s.run = .running →
    ∃ e, runLoop (List.replicate k .tick ++ [.cancel]) s = .next e ∧
      ticks k s = .next e.state ∧
      ((∃ t, e = .cancelled t ∧ t.run = .running) ∨ (∃ t, e = .halted t ∧ t.run = .halted))

/-- 10_state.md, 11, marked derived: after any tick, a Running engine's PC is inside the program
store. -/
def Obligations.RunningEnginesFetchInBounds : Prop :=
  ∀ s t : State, s.run = .running → step s = .next t → t.run = .running →
    t.pc.toNat < t.progLen.val

/-- 70_reset_and_hazards.md, 4 and 40_engine_step.md, 6, marked derived: A, B, C and PC, with the
store, Run and the values of In, determine the future; Out, the trace and a recorded fault do not
matter to it. -/
def Obligations.CoreStateDeterminesTheFuture : Prop :=
  ∀ (k : Nat) (s t : State), SameCore s t → s.inLatch = t.inLatch → s.inputs = t.inputs →
    ∃ s' t', ticks k s = .next s' ∧ ticks k t = .next t' ∧ SameCore s' t'

/-- 70_reset_and_hazards.md, 4, marked derived: without an IN instruction in the store, what the host
does with In does not matter to A, B, C, PC and Run. -/
def Obligations.InputIsIrrelevantWithoutIn : Prop :=
  ∀ (k : Nat) (s t : State), SameCore s t → NoInput s →
    ∃ s' t', ticks k s = .next s' ∧ ticks k t = .next t' ∧ SameCore s' t'

/-- 70_reset_and_hazards.md, 4, marked derived: "if the engine is still Running after 8192 Steps …
the run never halts", for a store without IN, and for a constant In. Constant In is the model's
`ConstantIn`: every value of the schedule, empty or not, is the one In holds, and past its end the
host writes nothing (DESIGN CHOICE, log 3). -/
def Obligations.StillRunningAfter8192TicksNeverHalts : Prop :=
  ∀ s t : State, ConstantIn s ∨ NoInput s →
    ticks 8192 s = .next t → t.run = .running →
    ∀ k : Nat, ∃ u, ticks k s = .next u ∧ u.run = .running
end

