-- ==== Sys2Proof/Laws/Memory.lean ====
section
/-! SUPPORT. The laws of the program store as a memory: reading after writing, and that every memory
operation keeps the canonical form. -/

namespace Sys2Proof.Machine

/-! ## The canonical form -/

theorem Memory.risesFrom_mono {k k' : Nat} (h : k' ≤ k) :
    ∀ {m : Memory}, m.risesFrom k = true → m.risesFrom k' = true
  | [], _ => rfl
  | (addr, v) :: rest, hm => by
    simp only [Memory.risesFrom, Bool.and_eq_true, decide_eq_true_eq] at hm ⊢
    exact ⟨⟨h.trans hm.1.1, hm.1.2⟩, hm.2⟩

/-- An address below every listed one reads as an unlisted address. -/
theorem Memory.read_below {k addr : Nat} (h : addr < k) :
    ∀ {m : Memory}, m.risesFrom k = true → m.read addr = unlistedByte
  | [], _ => rfl
  | (k', v) :: rest, hm => by
    simp only [Memory.risesFrom, Bool.and_eq_true, decide_eq_true_eq] at hm
    rw [Memory.read, if_neg (by omega)]
    exact Memory.read_below (by omega) hm.2

theorem Memory.consCell_risesFrom {k addr : Nat} {v : Byte} {rest : Memory} (h : k ≤ addr)
    (hr : rest.risesFrom (addr + 1) = true) : (Memory.consCell addr v rest).risesFrom k = true := by
  unfold Memory.consCell
  split
  · exact Memory.risesFrom_mono (by omega) hr
  · simp_all [Memory.risesFrom]

/-- Writing keeps the canonical form. -/
theorem Memory.write_risesFrom {addr : Nat} {v : Byte} :
    ∀ {m : Memory} {k : Nat}, k ≤ addr → m.risesFrom k = true → (m.write addr v).risesFrom k = true
  | [], k, h, _ => Memory.consCell_risesFrom h rfl
  | (k', w) :: rest, k, h, hm => by
    have hm' := hm
    simp only [Memory.risesFrom, Bool.and_eq_true, decide_eq_true_eq] at hm
    rw [Memory.write]
    split
    · refine Memory.consCell_risesFrom h ?_
      simp only [Memory.risesFrom, Bool.and_eq_true, decide_eq_true_eq]
      exact ⟨⟨by omega, hm.1.2⟩, hm.2⟩
    · split
      · subst addr; exact Memory.consCell_risesFrom h hm.2
      · simp only [Memory.risesFrom, Bool.and_eq_true, decide_eq_true_eq]
        exact ⟨hm.1, Memory.write_risesFrom (by omega) hm.2⟩

theorem Memory.write_wf {m : Memory} (addr : Nat) (v : Byte) (h : m.wf = true) :
    (m.write addr v).wf = true :=
  Memory.write_risesFrom (Nat.zero_le _) h

/-- Laying out program bytes gives the canonical form. -/
theorem Memory.ofBytes_risesFrom :
    ∀ (bytes : List Byte) (start : Nat), (Memory.ofBytes start bytes).risesFrom start = true
  | [], _ => rfl
  | _ :: rest, start =>
    Memory.consCell_risesFrom (Nat.le_refl _) (Memory.ofBytes_risesFrom rest (start + 1))

theorem Memory.ofBytes_wf (bytes : List Byte) : (Memory.ofBytes 0 bytes).wf = true :=
  Memory.ofBytes_risesFrom bytes 0

theorem reset_memory_wf : State.reset.mem.wf = true := rfl

theorem Memory.below_cons (n k : Nat) (v : Byte) (rest : Memory) :
    Memory.below n ((k, v) :: rest) = (decide (k < n) && Memory.below n rest) := rfl

theorem Memory.below_consCell {n addr : Nat} {v : Byte} {rest : Memory} (h : addr < n)
    (hr : rest.below n = true) : (Memory.consCell addr v rest).below n = true := by
  unfold Memory.consCell
  split
  · exact hr
  · rw [Memory.below_cons, hr]; simpa using h

theorem Memory.write_below {n addr : Nat} {v : Byte} (h : addr < n) :
    ∀ {m : Memory}, m.below n = true → (m.write addr v).below n = true
  | [], _ => Memory.below_consCell h rfl
  | (k, w) :: rest, hm => by
    have hm' : decide (k < n) = true ∧ Memory.below n rest = true := by
      simpa only [Memory.below_cons, Bool.and_eq_true] using hm
    rw [Memory.write]
    split
    · exact Memory.below_consCell h hm
    · split
      · exact Memory.below_consCell h hm'.2
      · rw [Memory.below_cons, hm'.1, Memory.write_below h hm'.2]; rfl

theorem Memory.ofBytes_below :
    ∀ (bytes : List Byte) (start : Nat),
      (Memory.ofBytes start bytes).below (start + bytes.length) = true
  | [], _ => rfl
  | _ :: rest, start => by
    have := Memory.ofBytes_below rest (start + 1)
    rw [show start + 1 + rest.length = start + (rest.length + 1) by omega] at this
    exact Memory.below_consCell (by simp) this

/-! ## Reading -/

theorem Memory.read_consCell {addr a' : Nat} {v : Byte} {rest : Memory}
    (hr : rest.risesFrom (addr + 1) = true) :
    (Memory.consCell addr v rest).read a' = if addr = a' then v else rest.read a' := by
  unfold Memory.consCell
  split
  · split
    · subst a'
      rw [Memory.read_below (Nat.lt_succ_self addr) hr, ‹v = unlistedByte›]
    · rfl
  · rfl

/-- Reading after writing: the byte written at that address, the old byte at every other one. -/
theorem Memory.read_write {addr a' : Nat} {v : Byte} :
    ∀ {m : Memory} {k : Nat}, m.risesFrom k = true →
      (m.write addr v).read a' = if addr = a' then v else m.read a'
  | [], _, _ => by rw [Memory.write, Memory.read_consCell rfl]
  | (k', w) :: rest, k, hm => by
    have hm' := hm
    simp only [Memory.risesFrom, Bool.and_eq_true, decide_eq_true_eq] at hm
    rw [Memory.write]
    split
    · rw [Memory.read_consCell]
      simp only [Memory.risesFrom, Bool.and_eq_true, decide_eq_true_eq]
      exact ⟨⟨by omega, hm.1.2⟩, hm.2⟩
    · split
      · subst addr
        rw [Memory.read_consCell hm.2, Memory.read]
        split <;> rfl
      · rw [Memory.read, Memory.read_write hm.2, Memory.read]
        split <;> split <;> first | rfl | omega

/-- Entry `k` of the program bytes is at address `start + k` (R35). -/
theorem Memory.read_ofBytes :
    ∀ (bytes : List Byte) (start k : Nat),
      (Memory.ofBytes start bytes).read (start + k) = bytes[k]?.getD unlistedByte
  | [], _, _ => rfl
  | v :: rest, start, 0 => by
    rw [Memory.ofBytes, Memory.read_consCell (Memory.ofBytes_risesFrom _ _)]; simp
  | v :: rest, start, k + 1 => by
    rw [Memory.ofBytes, Memory.read_consCell (Memory.ofBytes_risesFrom _ _), if_neg (by omega),
      show start + (k + 1) = start + 1 + k by omega, Memory.read_ofBytes rest (start + 1) k]
    simp

/-! ## The program-store read of a state -/

/-- The read depends on the store alone. -/
theorem State.memRead_congr {s t : State} (hl : t.progLen = s.progLen) (hm : t.mem = s.mem)
    (addr : Nibble) : t.memRead addr = s.memRead addr := by
  simp only [State.memRead, hl, hm]

/-- R33: at and above `L` the read gives 0x00. -/
theorem State.memRead_outside {s : State} {addr : Nibble} (h : s.progLen.val ≤ addr.toNat) :
    s.memRead addr = 0x00#8 := by
  rw [State.memRead, if_neg (by omega)]

/-- Placing a byte at PC keeps the store well formed. -/
theorem placeAtPC_storeWf {s : State} (byte : Byte) (h : s.storeWf = true) :
    (placeAtPC byte s).storeWf = true := by
  simp only [State.storeWf, Bool.and_eq_true] at h ⊢
  refine ⟨Memory.write_wf _ _ h.1, ?_⟩
  have hp := s.pc.isLt
  simp only [placeAtPC]
  split
  · exact Memory.write_below ‹_› h.2
  · refine Memory.write_below ?_ ?_
    · simp only [Fin.ofNat]; omega
    · simp only [Memory.below, List.all_eq_true, decide_eq_true_eq] at h ⊢
      intro cell hc
      have := h.2 cell hc
      simp only [Fin.ofNat]; omega

/-- A byte placed at PC is what the next fetch reads. -/
theorem fetch_placeAtPC {s : State} (byte : Byte) (h : s.mem.wf = true) :
    fetch (placeAtPC byte s) = byte := by
  have hp := s.pc.isLt
  rw [fetch, State.memRead, if_pos]
  · simp only [placeAtPC]; rw [Memory.read_write h, if_pos rfl]
  · simp only [placeAtPC]
    split
    · assumption
    · simp only [Fin.ofNat]; omega

end Sys2Proof.Machine
end

