-- ==== Sys2Proof/Laws/State.lean ====
section
/-! SUPPORT. One lemma per field per update, so that no proof unfolds a record update. -/

namespace Sys2Proof.Machine

variable (s : State)

/-! ## setPC -/

@[simp] theorem setPC_a (v : Nibble) : (setPC v s).a = s.a := rfl
@[simp] theorem setPC_b (v : Nibble) : (setPC v s).b = s.b := rfl
@[simp] theorem setPC_c (v : Nibble) : (setPC v s).c = s.c := rfl
@[simp] theorem setPC_pc (v : Nibble) : (setPC v s).pc = v := rfl
@[simp] theorem setPC_inLatch (v : Nibble) : (setPC v s).inLatch = s.inLatch := rfl
@[simp] theorem setPC_outLatch (v : Nibble) : (setPC v s).outLatch = s.outLatch := rfl
@[simp] theorem setPC_run (v : Nibble) : (setPC v s).run = s.run := rfl
@[simp] theorem setPC_trace (v : Nibble) : (setPC v s).trace = s.trace := rfl
@[simp] theorem setPC_fault (v : Nibble) : (setPC v s).fault = s.fault := rfl
@[simp] theorem setPC_progLen (v : Nibble) : (setPC v s).progLen = s.progLen := rfl
@[simp] theorem setPC_mem (v : Nibble) : (setPC v s).mem = s.mem := rfl
@[simp] theorem setPC_inputs (v : Nibble) : (setPC v s).inputs = s.inputs := rfl

/-! ## setCarry -/

@[simp] theorem setCarry_a (v : Bool) : (setCarry v s).a = s.a := rfl
@[simp] theorem setCarry_b (v : Bool) : (setCarry v s).b = s.b := rfl
@[simp] theorem setCarry_c (v : Bool) : (setCarry v s).c = v := rfl
@[simp] theorem setCarry_pc (v : Bool) : (setCarry v s).pc = s.pc := rfl
@[simp] theorem setCarry_inLatch (v : Bool) : (setCarry v s).inLatch = s.inLatch := rfl
@[simp] theorem setCarry_outLatch (v : Bool) : (setCarry v s).outLatch = s.outLatch := rfl
@[simp] theorem setCarry_run (v : Bool) : (setCarry v s).run = s.run := rfl
@[simp] theorem setCarry_trace (v : Bool) : (setCarry v s).trace = s.trace := rfl
@[simp] theorem setCarry_fault (v : Bool) : (setCarry v s).fault = s.fault := rfl
@[simp] theorem setCarry_progLen (v : Bool) : (setCarry v s).progLen = s.progLen := rfl
@[simp] theorem setCarry_mem (v : Bool) : (setCarry v s).mem = s.mem := rfl
@[simp] theorem setCarry_inputs (v : Bool) : (setCarry v s).inputs = s.inputs := rfl

/-! ## setRun -/

@[simp] theorem setRun_a (v : RunState) : (setRun v s).a = s.a := rfl
@[simp] theorem setRun_b (v : RunState) : (setRun v s).b = s.b := rfl
@[simp] theorem setRun_c (v : RunState) : (setRun v s).c = s.c := rfl
@[simp] theorem setRun_pc (v : RunState) : (setRun v s).pc = s.pc := rfl
@[simp] theorem setRun_inLatch (v : RunState) : (setRun v s).inLatch = s.inLatch := rfl
@[simp] theorem setRun_outLatch (v : RunState) : (setRun v s).outLatch = s.outLatch := rfl
@[simp] theorem setRun_run (v : RunState) : (setRun v s).run = v := rfl
@[simp] theorem setRun_trace (v : RunState) : (setRun v s).trace = s.trace := rfl
@[simp] theorem setRun_fault (v : RunState) : (setRun v s).fault = s.fault := rfl
@[simp] theorem setRun_progLen (v : RunState) : (setRun v s).progLen = s.progLen := rfl
@[simp] theorem setRun_mem (v : RunState) : (setRun v s).mem = s.mem := rfl
@[simp] theorem setRun_inputs (v : RunState) : (setRun v s).inputs = s.inputs := rfl

/-! ## portWrite -/

@[simp] theorem portWrite_a (v : Nibble) : (portWrite v s).a = s.a := rfl
@[simp] theorem portWrite_b (v : Nibble) : (portWrite v s).b = s.b := rfl
@[simp] theorem portWrite_c (v : Nibble) : (portWrite v s).c = s.c := rfl
@[simp] theorem portWrite_pc (v : Nibble) : (portWrite v s).pc = s.pc := rfl
@[simp] theorem portWrite_inLatch (v : Nibble) : (portWrite v s).inLatch = s.inLatch := rfl
@[simp] theorem portWrite_outLatch (v : Nibble) : (portWrite v s).outLatch = v := rfl
@[simp] theorem portWrite_run (v : Nibble) : (portWrite v s).run = s.run := rfl
@[simp] theorem portWrite_trace (v : Nibble) : (portWrite v s).trace = s.trace ++ [v] := rfl
@[simp] theorem portWrite_fault (v : Nibble) : (portWrite v s).fault = s.fault := rfl
@[simp] theorem portWrite_progLen (v : Nibble) : (portWrite v s).progLen = s.progLen := rfl
@[simp] theorem portWrite_mem (v : Nibble) : (portWrite v s).mem = s.mem := rfl
@[simp] theorem portWrite_inputs (v : Nibble) : (portWrite v s).inputs = s.inputs := rfl

/-! ## hostWritesIn -/

@[simp] theorem hostWritesIn_a (v : Nibble) : (hostWritesIn v s).a = s.a := rfl
@[simp] theorem hostWritesIn_b (v : Nibble) : (hostWritesIn v s).b = s.b := rfl
@[simp] theorem hostWritesIn_c (v : Nibble) : (hostWritesIn v s).c = s.c := rfl
@[simp] theorem hostWritesIn_pc (v : Nibble) : (hostWritesIn v s).pc = s.pc := rfl
@[simp] theorem hostWritesIn_inLatch (v : Nibble) : (hostWritesIn v s).inLatch = v := rfl
@[simp] theorem hostWritesIn_outLatch (v : Nibble) : (hostWritesIn v s).outLatch = s.outLatch := rfl
@[simp] theorem hostWritesIn_run (v : Nibble) : (hostWritesIn v s).run = s.run := rfl
@[simp] theorem hostWritesIn_trace (v : Nibble) : (hostWritesIn v s).trace = s.trace := rfl
@[simp] theorem hostWritesIn_fault (v : Nibble) : (hostWritesIn v s).fault = s.fault := rfl
@[simp] theorem hostWritesIn_progLen (v : Nibble) : (hostWritesIn v s).progLen = s.progLen := rfl
@[simp] theorem hostWritesIn_mem (v : Nibble) : (hostWritesIn v s).mem = s.mem := rfl
@[simp] theorem hostWritesIn_inputs (v : Nibble) : (hostWritesIn v s).inputs = s.inputs := rfl

/-! ## raiseUnknownOpcode -/

@[simp] theorem raiseUnknownOpcode_a (byte : Byte) : (raiseUnknownOpcode byte s).a = s.a := rfl
@[simp] theorem raiseUnknownOpcode_b (byte : Byte) : (raiseUnknownOpcode byte s).b = s.b := rfl
@[simp] theorem raiseUnknownOpcode_c (byte : Byte) : (raiseUnknownOpcode byte s).c = s.c := rfl
@[simp] theorem raiseUnknownOpcode_pc (byte : Byte) : (raiseUnknownOpcode byte s).pc = s.pc := rfl
@[simp] theorem raiseUnknownOpcode_inLatch (byte : Byte) : (raiseUnknownOpcode byte s).inLatch = s.inLatch := rfl
@[simp] theorem raiseUnknownOpcode_outLatch (byte : Byte) : (raiseUnknownOpcode byte s).outLatch = s.outLatch := rfl
@[simp] theorem raiseUnknownOpcode_run (byte : Byte) : (raiseUnknownOpcode byte s).run = .halted := rfl
@[simp] theorem raiseUnknownOpcode_trace (byte : Byte) : (raiseUnknownOpcode byte s).trace = s.trace := rfl
@[simp] theorem raiseUnknownOpcode_fault (byte : Byte) : (raiseUnknownOpcode byte s).fault = some (.unknownOpcode s.pc byte) := rfl
@[simp] theorem raiseUnknownOpcode_progLen (byte : Byte) : (raiseUnknownOpcode byte s).progLen = s.progLen := rfl
@[simp] theorem raiseUnknownOpcode_mem (byte : Byte) : (raiseUnknownOpcode byte s).mem = s.mem := rfl
@[simp] theorem raiseUnknownOpcode_inputs (byte : Byte) : (raiseUnknownOpcode byte s).inputs = s.inputs := rfl

/-! ## clearAndAdvance -/

@[simp] theorem clearAndAdvance_a : (clearAndAdvance s).a = s.a := rfl
@[simp] theorem clearAndAdvance_b : (clearAndAdvance s).b = s.b := rfl
@[simp] theorem clearAndAdvance_c : (clearAndAdvance s).c = false := rfl
@[simp] theorem clearAndAdvance_pc : (clearAndAdvance s).pc = inc4 s.pc := rfl
@[simp] theorem clearAndAdvance_inLatch : (clearAndAdvance s).inLatch = s.inLatch := rfl
@[simp] theorem clearAndAdvance_outLatch : (clearAndAdvance s).outLatch = s.outLatch := rfl
@[simp] theorem clearAndAdvance_run : (clearAndAdvance s).run = s.run := rfl
@[simp] theorem clearAndAdvance_trace : (clearAndAdvance s).trace = s.trace := rfl
@[simp] theorem clearAndAdvance_fault : (clearAndAdvance s).fault = s.fault := rfl
@[simp] theorem clearAndAdvance_progLen : (clearAndAdvance s).progLen = s.progLen := rfl
@[simp] theorem clearAndAdvance_mem : (clearAndAdvance s).mem = s.mem := rfl
@[simp] theorem clearAndAdvance_inputs : (clearAndAdvance s).inputs = s.inputs := rfl

/-! ## writeAcc -/

@[simp] theorem writeAcc_a_a (v : Nibble) : (writeAcc .a v s).a = v := rfl
@[simp] theorem writeAcc_a_b (v : Nibble) : (writeAcc .a v s).b = s.b := rfl
@[simp] theorem writeAcc_a_c (v : Nibble) : (writeAcc .a v s).c = s.c := rfl
@[simp] theorem writeAcc_a_pc (v : Nibble) : (writeAcc .a v s).pc = s.pc := rfl
@[simp] theorem writeAcc_a_inLatch (v : Nibble) : (writeAcc .a v s).inLatch = s.inLatch := rfl
@[simp] theorem writeAcc_a_outLatch (v : Nibble) : (writeAcc .a v s).outLatch = s.outLatch := rfl
@[simp] theorem writeAcc_a_run (v : Nibble) : (writeAcc .a v s).run = s.run := rfl
@[simp] theorem writeAcc_a_trace (v : Nibble) : (writeAcc .a v s).trace = s.trace := rfl
@[simp] theorem writeAcc_a_fault (v : Nibble) : (writeAcc .a v s).fault = s.fault := rfl
@[simp] theorem writeAcc_a_progLen (v : Nibble) : (writeAcc .a v s).progLen = s.progLen := rfl
@[simp] theorem writeAcc_a_mem (v : Nibble) : (writeAcc .a v s).mem = s.mem := rfl
@[simp] theorem writeAcc_a_inputs (v : Nibble) : (writeAcc .a v s).inputs = s.inputs := rfl

@[simp] theorem writeAcc_b_a (v : Nibble) : (writeAcc .b v s).a = s.a := rfl
@[simp] theorem writeAcc_b_b (v : Nibble) : (writeAcc .b v s).b = v := rfl
@[simp] theorem writeAcc_b_c (v : Nibble) : (writeAcc .b v s).c = s.c := rfl
@[simp] theorem writeAcc_b_pc (v : Nibble) : (writeAcc .b v s).pc = s.pc := rfl
@[simp] theorem writeAcc_b_inLatch (v : Nibble) : (writeAcc .b v s).inLatch = s.inLatch := rfl
@[simp] theorem writeAcc_b_outLatch (v : Nibble) : (writeAcc .b v s).outLatch = s.outLatch := rfl
@[simp] theorem writeAcc_b_run (v : Nibble) : (writeAcc .b v s).run = s.run := rfl
@[simp] theorem writeAcc_b_trace (v : Nibble) : (writeAcc .b v s).trace = s.trace := rfl
@[simp] theorem writeAcc_b_fault (v : Nibble) : (writeAcc .b v s).fault = s.fault := rfl
@[simp] theorem writeAcc_b_progLen (v : Nibble) : (writeAcc .b v s).progLen = s.progLen := rfl
@[simp] theorem writeAcc_b_mem (v : Nibble) : (writeAcc .b v s).mem = s.mem := rfl
@[simp] theorem writeAcc_b_inputs (v : Nibble) : (writeAcc .b v s).inputs = s.inputs := rfl

/-! ## acceptInput -/

@[simp] theorem acceptInput_a : (acceptInput s).a = s.a := by
  unfold acceptInput; split <;> rfl
@[simp] theorem acceptInput_b : (acceptInput s).b = s.b := by
  unfold acceptInput; split <;> rfl
@[simp] theorem acceptInput_c : (acceptInput s).c = s.c := by
  unfold acceptInput; split <;> rfl
@[simp] theorem acceptInput_pc : (acceptInput s).pc = s.pc := by
  unfold acceptInput; split <;> rfl
@[simp] theorem acceptInput_outLatch : (acceptInput s).outLatch = s.outLatch := by
  unfold acceptInput; split <;> rfl
@[simp] theorem acceptInput_run : (acceptInput s).run = s.run := by
  unfold acceptInput; split <;> rfl
@[simp] theorem acceptInput_trace : (acceptInput s).trace = s.trace := by
  unfold acceptInput; split <;> rfl
@[simp] theorem acceptInput_fault : (acceptInput s).fault = s.fault := by
  unfold acceptInput; split <;> rfl
@[simp] theorem acceptInput_progLen : (acceptInput s).progLen = s.progLen := by
  unfold acceptInput; split <;> rfl
@[simp] theorem acceptInput_mem : (acceptInput s).mem = s.mem := by
  unfold acceptInput; split <;> rfl
@[simp] theorem acceptInput_inLatch : (acceptInput s).inLatch = s.inputs.head?.getD s.inLatch := by
  unfold acceptInput; split <;> simp [*]
@[simp] theorem acceptInput_inputs : (acceptInput s).inputs = s.inputs.tail := by
  unfold acceptInput; split <;> simp [*]

/-! ## endStep: only Run may change -/

@[simp] theorem endStep_a : (endStep s).a = s.a := by
  unfold endStep haltCheck; split <;> (try split) <;> rfl
@[simp] theorem endStep_b : (endStep s).b = s.b := by
  unfold endStep haltCheck; split <;> (try split) <;> rfl
@[simp] theorem endStep_c : (endStep s).c = s.c := by
  unfold endStep haltCheck; split <;> (try split) <;> rfl
@[simp] theorem endStep_pc : (endStep s).pc = s.pc := by
  unfold endStep haltCheck; split <;> (try split) <;> rfl
@[simp] theorem endStep_inLatch : (endStep s).inLatch = s.inLatch := by
  unfold endStep haltCheck; split <;> (try split) <;> rfl
@[simp] theorem endStep_outLatch : (endStep s).outLatch = s.outLatch := by
  unfold endStep haltCheck; split <;> (try split) <;> rfl
@[simp] theorem endStep_trace : (endStep s).trace = s.trace := by
  unfold endStep haltCheck; split <;> (try split) <;> rfl
@[simp] theorem endStep_fault : (endStep s).fault = s.fault := by
  unfold endStep haltCheck; split <;> (try split) <;> rfl
@[simp] theorem endStep_progLen : (endStep s).progLen = s.progLen := by
  unfold endStep haltCheck; split <;> (try split) <;> rfl
@[simp] theorem endStep_mem : (endStep s).mem = s.mem := by
  unfold endStep haltCheck; split <;> (try split) <;> rfl
@[simp] theorem endStep_inputs : (endStep s).inputs = s.inputs := by
  unfold endStep haltCheck; split <;> (try split) <;> rfl

/-- R63 and R59 together: what Run is at the end of a Step. -/
theorem endStep_run : (endStep s).run =
    if s.run = .halted ∨ s.progLen.val ≤ s.pc.toNat then .halted else .running := by
  unfold endStep haltCheck
  split <;> rename_i h
  · simp [h]
  · split <;> simp_all

/-! ## Reads -/

@[simp] theorem readAcc_a : readAcc .a s = s.a := rfl
@[simp] theorem readAcc_b : readAcc .b s = s.b := rfl
@[simp] theorem readSource_imm (v : Nibble) : readSource (.imm v) s = v := rfl
@[simp] theorem readSource_acc (r : Acc) : readSource (.acc r) s = readAcc r s := rfl
@[simp] theorem readSource_port : readSource .port s = s.inLatch := rfl

end Sys2Proof.Machine
end

