-- ==== Sys2Proof/Laws/Ops.lean ====
section
/-! SUPPORT. One lemma per shared operation that says everything it does, and one per meaning that
says which operation it is. Proofs cite these instead of unfolding. -/

namespace Sys2Proof.Machine

variable (s : State)

/-! ## The operations -/

theorem moveTo_a_eq (src : Source) :
    moveTo .a src s = { s with a := readSource src s, c := false, pc := inc4 s.pc } := rfl

theorem moveTo_b_eq (src : Source) :
    moveTo .b src s = { s with b := readSource src s, c := false, pc := inc4 s.pc } := rfl

theorem outputFrom_eq (src : Source) :
    outputFrom src s = { s with
      outLatch := readSource src s, trace := s.trace ++ [readSource src s],
      c := false, pc := inc4 s.pc } := rfl

theorem addTo_a_eq (im : Nibble) :
    addTo .a im s = { s with
      a := narrowSum (exactSum s.a im), c := stickyCarry s.c (exactSum s.a im),
      pc := inc4 s.pc } := rfl

theorem addTo_b_eq (im : Nibble) :
    addTo .b im s = { s with
      b := narrowSum (exactSum s.b im), c := stickyCarry s.c (exactSum s.b im),
      pc := inc4 s.pc } := rfl

theorem jumpTo_eq (target : Nibble) : jumpTo target s = { s with pc := target, c := false } := rfl

theorem jumpIfNoCarry_eq (target : Nibble) :
    jumpIfNoCarry target s =
      { s with pc := if s.c = false then target else inc4 s.pc, c := false } := by
  unfold jumpIfNoCarry; split <;> rfl

theorem inc4_toNat (v : Nibble) : (inc4 v).toNat = (v.toNat + 1) % 16 := by
  simp [inc4, BitVec.toNat_add]

theorem narrowSum_toNat (sum : Nat) : (narrowSum sum).toNat = sum % 16 := by
  simp [narrowSum, BitVec.toNat_ofNat]

theorem stickyCarry_eq (c0 : Bool) (sum : Nat) :
    stickyCarry c0 sum = (c0 || decide (sum > 15)) := by
  unfold stickyCarry; split <;> simp [*]

/-! ## Dispatch -/

@[simp] theorem exec_addAIm (im : Nibble) : exec (.addAIm im) s = .next (addTo .a im s) := rfl
@[simp] theorem exec_movAB : exec .movAB s = .next (moveTo .a (.acc .b) s) := rfl
@[simp] theorem exec_inA : exec .inA s = .next (moveTo .a .port s) := rfl
@[simp] theorem exec_movAIm (im : Nibble) : exec (.movAIm im) s = .next (moveTo .a (.imm im) s) := rfl
@[simp] theorem exec_movBA : exec .movBA s = .next (moveTo .b (.acc .a) s) := rfl
@[simp] theorem exec_addBIm (im : Nibble) : exec (.addBIm im) s = .next (addTo .b im s) := rfl
@[simp] theorem exec_inB : exec .inB s = .next (moveTo .b .port s) := rfl
@[simp] theorem exec_movBIm (im : Nibble) : exec (.movBIm im) s = .next (moveTo .b (.imm im) s) := rfl
@[simp] theorem exec_unknown1000 (raw : Nibble) :
    exec (.unknown1000 raw) s = .next (raiseUnknownOpcode (joinNibbles 0b1000#4 raw) s) := rfl
@[simp] theorem exec_outB : exec .outB s = .next (outputFrom (.acc .b) s) := rfl
@[simp] theorem exec_unknown1010 (raw : Nibble) :
    exec (.unknown1010 raw) s = .next (raiseUnknownOpcode (joinNibbles 0b1010#4 raw) s) := rfl
@[simp] theorem exec_outIm (im : Nibble) : exec (.outIm im) s = .next (outputFrom (.imm im) s) := rfl
@[simp] theorem exec_unknown1100 (raw : Nibble) :
    exec (.unknown1100 raw) s = .next (raiseUnknownOpcode (joinNibbles 0b1100#4 raw) s) := rfl
@[simp] theorem exec_unknown1101 (raw : Nibble) :
    exec (.unknown1101 raw) s = .next (raiseUnknownOpcode (joinNibbles 0b1101#4 raw) s) := rfl
@[simp] theorem exec_jncIm (im : Nibble) : exec (.jncIm im) s = .next (jumpIfNoCarry im s) := rfl
@[simp] theorem exec_jmpIm (im : Nibble) : exec (.jmpIm im) s = .next (jumpTo im s) := rfl

/-- Everything a transition can do to the machine's status and store: one of the twelve keeps Run,
the record, the store and the host's side; an unknown opcode raises the fault with its own byte. -/
theorem exec_cases (i : Instr) :
    ∃ t, exec i s = .next t ∧
      (i.wellFormed = true ∧ t.run = s.run ∧ t.fault = s.fault ∨
        i.wellFormed = false ∧ t = raiseUnknownOpcode (encode i) s) ∧
      t.progLen = s.progLen ∧ t.mem = s.mem ∧ t.inLatch = s.inLatch ∧ t.inputs = s.inputs := by
  cases i with
  | jncIm im =>
    exact ⟨_, rfl, .inl ⟨rfl, by rw [jumpIfNoCarry_eq], by rw [jumpIfNoCarry_eq]⟩,
      by rw [jumpIfNoCarry_eq], by rw [jumpIfNoCarry_eq], by rw [jumpIfNoCarry_eq],
      by rw [jumpIfNoCarry_eq]⟩
  | unknown1000 raw => exact ⟨_, rfl, .inr ⟨rfl, rfl⟩, rfl, rfl, rfl, rfl⟩
  | unknown1010 raw => exact ⟨_, rfl, .inr ⟨rfl, rfl⟩, rfl, rfl, rfl, rfl⟩
  | unknown1100 raw => exact ⟨_, rfl, .inr ⟨rfl, rfl⟩, rfl, rfl, rfl, rfl⟩
  | unknown1101 raw => exact ⟨_, rfl, .inr ⟨rfl, rfl⟩, rfl, rfl, rfl, rfl⟩
  | _ => exact ⟨_, rfl, .inl ⟨rfl, rfl, rfl⟩, rfl, rfl, rfl, rfl⟩

end Sys2Proof.Machine
end

