-- ==== Sys2Proof/Laws/PerInstr.lean ====
section
/-! SUPPORT. Per instruction: the two fields of the encoded byte (spec/30_encoding.md R45). -/

namespace Sys2Proof.Laws

theorem highNibble_join (hi lo : Nibble) : highNibble (joinNibbles hi lo) = hi := by
  revert hi lo; decide

theorem lowNibble_join (hi lo : Nibble) : lowNibble (joinNibbles hi lo) = lo := by
  revert hi lo; decide

/-- Every byte is its two nibbles. -/
theorem join_nibbles (b : Byte) : joinNibbles (highNibble b) (lowNibble b) = b := by
  revert b; decide

/-- The encoded byte's opcode field is the row's opcode, its operand field the operand. -/
def Encoding.Statement (i : Instr) : Prop :=
  highNibble (encode i) = opcodeOf i ∧ lowNibble (encode i) = operandOf i

theorem encode_fields (i : Instr) : Encoding.Statement i :=
  ⟨highNibble_join _ _, lowNibble_join _ _⟩

theorem Encoding.addAIm (im : Nibble) : Encoding.Statement (.addAIm im) := encode_fields _
theorem Encoding.movAB : Encoding.Statement .movAB := encode_fields _
theorem Encoding.inA : Encoding.Statement .inA := encode_fields _
theorem Encoding.movAIm (im : Nibble) : Encoding.Statement (.movAIm im) := encode_fields _
theorem Encoding.movBA : Encoding.Statement .movBA := encode_fields _
theorem Encoding.addBIm (im : Nibble) : Encoding.Statement (.addBIm im) := encode_fields _
theorem Encoding.inB : Encoding.Statement .inB := encode_fields _
theorem Encoding.movBIm (im : Nibble) : Encoding.Statement (.movBIm im) := encode_fields _
theorem Encoding.unknown1000 (raw : Nibble) : Encoding.Statement (.unknown1000 raw) := encode_fields _
theorem Encoding.outB : Encoding.Statement .outB := encode_fields _
theorem Encoding.unknown1010 (raw : Nibble) : Encoding.Statement (.unknown1010 raw) := encode_fields _
theorem Encoding.outIm (im : Nibble) : Encoding.Statement (.outIm im) := encode_fields _
theorem Encoding.unknown1100 (raw : Nibble) : Encoding.Statement (.unknown1100 raw) := encode_fields _
theorem Encoding.unknown1101 (raw : Nibble) : Encoding.Statement (.unknown1101 raw) := encode_fields _
theorem Encoding.jncIm (im : Nibble) : Encoding.Statement (.jncIm im) := encode_fields _
theorem Encoding.jmpIm (im : Nibble) : Encoding.Statement (.jmpIm im) := encode_fields _

end Sys2Proof.Laws
end

