-- ==== Sys2Proof/Laws/Step.lean ====
section
/-! SUPPORT. What one tick can do, said once. -/

namespace Sys2Proof.Machine

theorem step_halted {s : State} (h : s.run = .halted) : step s = .next s := by
  simp [step, h]

/-- A tick of a Running engine, given the transition. -/
theorem step_running {s t : State} (h : s.run = .running)
    (ht : exec (decode (fetch (acceptInput s))) (acceptInput s) = .next t) :
    step s = .next (endStep t) := by
  simp [step, h, ht]

/-- The two things a tick can be. -/
theorem step_cases (s : State) :
    (s.run = .halted ∧ step s = .next s) ∨
      (s.run = .running ∧
        ∃ t, exec (decode (fetch (acceptInput s))) (acceptInput s) = .next t ∧
          step s = .next (endStep t)) := by
  cases h : s.run with
  | halted => exact .inl ⟨rfl, step_halted h⟩
  | running =>
    obtain ⟨t, ht, -⟩ := exec_cases (acceptInput s) (decode (fetch (acceptInput s)))
    exact .inr ⟨rfl, t, ht, step_running h ht⟩

@[simp] theorem fetch_acceptInput (s : State) : fetch (acceptInput s) = fetch s := by
  rw [fetch, acceptInput_pc, State.memRead_congr (acceptInput_progLen s) (acceptInput_mem s)]
  rfl

/-- `withFetchWord` does what it is for: the next step fetches the byte placed. -/
theorem fetch_withFetchWord {s : State} (nbits w : Nat) (h : s.mem.wf = true) :
    fetch (s.withFetchWord nbits w) = tableByte nbits w := by
  rw [← fetch_placeAtPC (tableByte nbits w) h]
  rfl

end Sys2Proof.Machine
end

