-- ==== Sys2Proof/Laws/Run.lean ====
section
/-! SUPPORT. Runs of ticks. -/

namespace Sys2Proof.Machine

theorem ticks_succ {s t : State} (h : step s = .next t) (k : Nat) :
    ticks (k + 1) s = ticks k t := by
  rw [ticks, h]

/-- Ticks add up. -/
theorem ticks_add {k : Nat} (m : Nat) :
    ∀ {s t : State}, ticks k s = .next t → ticks (k + m) s = ticks m t := by
  induction k with
  | zero => intro s t h; rw [Nat.zero_add, ← Host.Outcome.next.inj h]
  | succ k ih =>
    intro s t h
    rw [show k + 1 + m = k + m + 1 by omega]
    rcases step_cases s with ⟨-, hs⟩ | ⟨-, u, -, hs⟩
    · rw [ticks_succ hs] at h ⊢; exact ih h
    · rw [ticks_succ hs] at h ⊢; exact ih h

/-- The run of the host's interface. -/
theorem ticks_eq_run (k : Nat) : ∀ s : State, ticks k s = Host.Core.run Sys2Proof.core k s := by
  induction k with
  | zero => intro s; rfl
  | succ k ih =>
    intro s
    refine Eq.trans ?_ (Host.Core.run.eq_2 Sys2Proof.core s k).symm
    rcases step_cases s with ⟨-, hs⟩ | ⟨-, u, -, hs⟩
    all_goals
      refine (ticks_succ hs k).trans ((ih _).trans ?_)
      have hc : Sys2Proof.core.step s = .next _ := hs
      rw [hc]

end Sys2Proof.Machine
end

