-- ==== Sys2Proof/Tests/Slice0.lean ====
section
/-! SUPPORT. The model's own tests. Expected results are the spec's: the byte patterns of
spec/30_encoding.md R49, and the vectors of spec/95_test_vectors.md under their own ids. Then a
witness for the hypotheses of every statement that has some. -/

namespace Sys2Proof.Tests

open Sys2Proof Sys2Proof.Machine

/-! ## Well-formedness: each check refuses something -/

theorem test_wellFormed_refuses_1000 : (Instr.unknown1000 0).wellFormed = false := by decide
theorem test_wellFormed_refuses_1010 : (Instr.unknown1010 5).wellFormed = false := by decide
theorem test_wellFormed_refuses_1100 : (Instr.unknown1100 15).wellFormed = false := by decide
theorem test_wellFormed_refuses_1101 : (Instr.unknown1101 9).wellFormed = false := by decide
theorem test_wellFormed_accepts_jmp : (Instr.jmpIm 15).wellFormed = true := by decide
/-- H8 -/
theorem test_wellFormedStore_refuses_17 : wellFormedStore (List.replicate 17 0x00#8) = false := by decide
theorem test_wellFormedStore_accepts_16 : wellFormedStore (List.replicate 16 0x01#8) = true := by decide
theorem test_wellFormedStore_accepts_0 : wellFormedStore [] = true := by decide
theorem test_memory_wf_refuses_unlisted_value : Memory.wf [(3, 0x00#8)] = false := by decide
theorem test_memory_wf_refuses_order : Memory.wf [(3, 0x01#8), (3, 0x02#8)] = false := by decide

/-! ## Decoding: one word per constructor, bit by bit from R49 (low nibbles of section 2.1) -/

theorem test_decode_addAIm : decode 0b0000_1101#8 = .addAIm 13 := by decide
theorem test_decode_movAB : decode 0b0001_1111#8 = .movAB := by decide
theorem test_decode_inA : decode 0b0010_1010#8 = .inA := by decide
theorem test_decode_movAIm : decode 0b0011_0101#8 = .movAIm 5 := by decide
theorem test_decode_movBA : decode 0b0100_0111#8 = .movBA := by decide
theorem test_decode_addBIm : decode 0b0101_1100#8 = .addBIm 12 := by decide
theorem test_decode_inB : decode 0b0110_1010#8 = .inB := by decide
theorem test_decode_movBIm : decode 0b0111_1100#8 = .movBIm 12 := by decide
theorem test_decode_unknown1000 : decode 0b1000_1111#8 = .unknown1000 15 := by decide
theorem test_decode_outB : decode 0b1001_1111#8 = .outB := by decide
theorem test_decode_unknown1010 : decode 0b1010_0101#8 = .unknown1010 5 := by decide
theorem test_decode_outIm : decode 0b1011_0111#8 = .outIm 7 := by decide
theorem test_decode_unknown1100 : decode 0b1100_0000#8 = .unknown1100 0 := by decide
theorem test_decode_unknown1101 : decode 0b1101_1001#8 = .unknown1101 9 := by decide
theorem test_decode_jncIm : decode 0b1110_0101#8 = .jncIm 5 := by decide
theorem test_decode_jmpIm : decode 0b1111_1111#8 = .jmpIm 15 := by decide

/-- S5b: the decoder's pair for 0x47, raw nibble 7 forced to 0. -/
theorem test_decodeFields_forced : decodeFields 0x47#8 = (0b0100#4, 0#4) := by decide
/-- The pair for 0xA5: not forced (section 2.1). -/
theorem test_decodeFields_unknown : decodeFields 0xA5#8 = (0b1010#4, 5#4) := by decide
/-- The document's bytes 0x40 and 0x90 (R51). -/
theorem test_encode_canonical : encode .movBA = 0x40#8 ∧ encode .outB = 0x90#8 := by decide
theorem test_decodeTableWord : decodeTableWord 8 0x35 = some (.movAIm 5) := by decide
theorem test_decodeTableWord_too_long : decodeTableWord 16 0x0135 = none := by decide

/-! ## One step, the vectors of part 2 -/

/-- The conventions of 95_test_vectors.md: a store of length `len` with the byte at PC and 0x00
elsewhere, In, Out and the rest as after reset. -/
def stateAt (byte : Byte) (a b : Nibble) (c : Bool) (pc : Nibble) (len : StoreLength := 16) : State :=
  { State.reset with
    a := a, b := b, c := c, pc := pc, progLen := len, mem := Memory.write [] pc.toNat byte }

/-- One step gives a next state with these values. -/
def stepGives (s : State) (a b : Nibble) (c : Bool) (pc out : Nibble) (run : RunState)
    (events : List Nibble) : Bool :=
  match step s with
  | .next t =>
    t.a == a && t.b == b && t.c == c && t.pc == pc && t.outLatch == out && t.run == run &&
      t.trace == events && t.fault == none && t.inLatch == s.inLatch
  | .fault _ => false
  | .refused _ => false

/-- One step takes the fault: Run Halted, this record, and nothing else. -/
def stepFaults (s : State) (pc : Nibble) (byte : Byte) : Bool :=
  match step s with
  | .next t => t == { s with run := .halted, fault := some (.unknownOpcode pc byte) }
  | .fault _ => false
  | .refused _ => false

/-- M3 -/
theorem test_movAIm_wraps_pc : stepGives (stateAt 0x35 9 4 true 15) 5 4 false 0 0 .running [] = true := by decide
/-- M4 -/
theorem test_movBIm : stepGives (stateAt 0x7C 9 4 true 0) 9 12 false 1 0 .running [] = true := by decide
/-- M7 -/
theorem test_movBA : stepGives (stateAt 0x47 2 0 true 2) 2 2 false 3 0 .running [] = true := by decide
/-- M10 -/
theorem test_movAB : stepGives (stateAt 0x1F 0 7 true 5) 7 7 false 6 0 .running [] = true := by decide
/-- A4: the largest sum -/
theorem test_addAIm_largest : stepGives (stateAt 0x0F 15 0 false 1) 14 0 true 2 0 .running [] = true := by decide
/-- A8: the sticky carry -/
theorem test_addAIm_sticky : stepGives (stateAt 0x01 1 0 true 2) 2 0 true 3 0 .running [] = true := by decide
/-- A15: the sum exactly 15 -/
theorem test_addBIm_fifteen : stepGives (stateAt 0x56 1 9 false 2) 1 15 false 3 0 .running [] = true := by decide
/-- A16: the sum exactly 16 -/
theorem test_addBIm_sixteen : stepGives (stateAt 0x57 1 9 false 2) 1 0 true 3 0 .running [] = true := by decide
/-- J6: the target equal to L halts -/
theorem test_jmpIm_to_L : stepGives (stateAt 0xF8 3 1 false 2 8) 3 1 false 8 0 .halted [] = true := by decide
/-- J7: the target L - 1 runs on -/
theorem test_jmpIm_inside : stepGives (stateAt 0xF7 3 1 false 2 8) 3 1 false 7 0 .running [] = true := by decide
/-- J12: taken out of bounds -/
theorem test_jncIm_taken : stepGives (stateAt 0xEC 0 0 false 3 8) 0 0 false 12 0 .halted [] = true := by decide
/-- J10: not taken, wrapping -/
theorem test_jncIm_not_taken : stepGives (stateAt 0xE5 0 0 true 15) 0 0 false 0 0 .running [] = true := by decide
/-- I1 -/
theorem test_inA : stepGives { stateAt 0x20 3 1 true 0 with inLatch := 9 } 9 1 false 1 0 .running [] = true := by decide
/-- I4 -/
theorem test_inB : stepGives { stateAt 0x6A 3 1 false 4 with inLatch := 6 } 3 6 false 5 0 .running [] = true := by decide
/-- O1: the last instruction emits and the engine halts -/
theorem test_outB_last : stepGives (stateAt 0x90 2 2 false 3 4) 2 2 false 4 2 .halted [2] = true := by decide
/-- O6: an event also when Out holds the value already -/
theorem test_outIm_same : stepGives { stateAt 0xBF 2 1 false 15 with outLatch := 15 } 2 1 false 0 15 .running [15] = true := by decide
/-- U1 -/
theorem test_unknown1000 : stepFaults (stateAt 0x80 11 0 true 2) 2 0x80 = true := by decide
/-- U2 -/
theorem test_unknown1010 : stepFaults { stateAt 0xA5 1 2 false 0 with outLatch := 3 } 0 0xA5 = true := by decide
/-- U3 -/
theorem test_unknown1100 : stepFaults { stateAt 0xCF 1 2 true 15 with outLatch := 3 } 15 0xCF = true := by decide
/-- U4: the last address of the program -/
theorem test_unknown1101 : stepFaults { stateAt 0xD0 1 2 false 7 8 with outLatch := 3 } 7 0xD0 = true := by decide

/-! ## Reset, halting, the host -/

/-- H2, P6: the first tick of the empty program -/
theorem test_empty_program : stepGives State.reset 0 0 false 1 0 .halted [] = true := by decide
/-- H6 -/
theorem test_run_off_fifteen : stepGives (stateAt 0x01 0 0 false 14 15) 1 0 false 15 0 .halted [] = true := by decide
/-- H7 -/
theorem test_halted_tick : step { State.reset with run := .halted, inputs := [3] } =
    .next { State.reset with run := .halted, inputs := [3] } := rfl
/-- H8 -/
theorem test_construct_17 : State.construct (List.replicate 17 0x00#8) = .error .sizeLimit := by rfl
/-- The program of S6: entry 0 first, 0x00 at and above L. -/
theorem test_construct_S6 : ∃ s, State.construct [0x31, 0x01, 0x40, 0x90] = .ok s ∧
    s.memRead 0 = 0x31#8 ∧ s.memRead 3 = 0x90#8 ∧ s.memRead 4 = 0x00#8 ∧ s.progLen.val = 4 :=
  ⟨_, rfl, by decide⟩
/-- D3: the next value of the schedule is what an IN A of this Step reads, and it stays in In. -/
theorem test_schedule : step { stateAt 0x20 0 0 false 0 with inputs := [9, 4] } =
    .next { stateAt 0x20 9 0 false 1 with inLatch := 9, inputs := [4], mem := [(0, 0x20#8)] } := rfl
/-- H9, R67: cancelled between Steps, Run stays Running. -/
theorem test_cancel : runLoop [.tick, .cancel, .tick] (stateAt 0xF6 3 1 false 6) =
    .next (.cancelled (stateAt 0xF6 3 1 false 6)) := rfl
theorem test_withFetchWord : stepGives (State.reset.withFetchWord 8 0xB7) 0 0 false 1 7 .halted [7] = true := by decide
theorem test_signals : (stateAt 0x90 2 2 false 3 4).signals =
    { progAddr := 3, progData := 0x90, progLen := 4, outPort := 0, halted := false, fault := false } ∧
    (stateAt 0x90 2 2 false 3 4).outEvent = true ∧ (stateAt 0x10 2 2 false 3 4).outEvent = false := by
  decide

/-! ## Witnesses: concrete states and operands that meet a statement's hypotheses -/

theorem witness_ConstructionGivesResetValues :
    (List.replicate 16 0xFF#8).length ≤ 16 ∧ ([] : List Byte).length ≤ 16 := by decide

theorem witness_ConstructionRefusesLongStores :
    16 < (List.replicate 17 0x00#8).length ∧ (List.replicate 16 0x00#8).length ≤ 16 := by decide

/-- Both clauses at their boundary: address L - 1 and address L. -/
theorem witness_MemReadFollowsProgramStore : ∃ s, State.construct [0x31, 0x01] = .ok s ∧
    (1#4).toNat < [0x31#8, 0x01#8].length ∧ [0x31#8, 0x01#8].length ≤ (2#4).toNat :=
  ⟨_, rfl, by decide⟩

theorem witness_ConstructionEstablishesInvariant :
    ∃ s, State.construct (List.replicate 16 0x01#8) = .ok s := ⟨_, rfl⟩

theorem witness_StepKeepsInvariant : ∃ s t, StateInv s ∧ step s = .next t ∧ s.run = .running :=
  ⟨stateAt 0x90 0 0 false 3 4, _, ⟨by decide, by decide, by decide, by decide⟩, rfl, rfl⟩

theorem witness_AddingComplementSubtracts : (1 ≤ 1 ∧ 1 ≤ 15) ∧ (1 ≤ 15 ∧ 15 ≤ 15) := by decide

/-- The target at L - 1 and at L. -/
theorem witness_JmpSetsPC :
    ((stateAt 0xF7 0 0 false 2 8).run = .running ∧
      (stateAt 0xF7 0 0 false 2 8).nextInstr = .jmpIm 7) ∧
    ((stateAt 0xF8 0 0 false 2 8).run = .running ∧
      (stateAt 0xF8 0 0 false 2 8).nextInstr = .jmpIm 8) := by decide

/-- Taken and not taken. -/
theorem witness_JncJumpsWhenCarryClear :
    ((stateAt 0xE8 0 0 false 7 8).run = .running ∧
      (stateAt 0xE8 0 0 false 7 8).nextInstr = .jncIm 8) ∧
    ((stateAt 0xE0 0 0 true 7 8).run = .running ∧
      (stateAt 0xE0 0 0 true 7 8).nextInstr = .jncIm 0) := by decide

theorem witness_OutBWritesPortAndEmits :
    (stateAt 0x9F 0 2 false 3 4).run = .running ∧ (stateAt 0x9F 0 2 false 3 4).nextInstr = .outB ∧
    (stateAt 0x9F 0 2 false 3 4).progLen.val ≤ (inc4 (stateAt 0x9F 0 2 false 3 4).pc).toNat := by
  decide

theorem witness_UnknownOpcodeHaltsWithoutOtherChange :
    ((Instr.unknown1000 0 = .unknown1000 0 ∧ Instr.unknown1101 15 = .unknown1101 15) ∧
      (Instr.unknown1010 0 = .unknown1010 0 ∧ Instr.unknown1100 15 = .unknown1100 15)) ∧
    ((stateAt 0xD0 1 2 false 7 8).run = .running ∧
      unknownOpcodeValue (highNibble
        ((stateAt 0xD0 1 2 false 7 8).memRead (stateAt 0xD0 1 2 false 7 8).pc)) = true) := by decide

/-- A Step of one of the twelve, and a Step that faults. -/
theorem witness_FaultRecordHoldsPCAndFetchedByte :
    ((stateAt 0x30 0 0 false 0).run = .running ∧
      (stateAt 0x30 0 0 false 0).nextInstr.wellFormed = true) ∧
    ((stateAt 0x8F 0 0 false 0).run = .running ∧
      (stateAt 0x8F 0 0 false 0).nextInstr.wellFormed = false) := by decide

theorem witness_FaultIsPreciseAndFinal :
    (stateAt 0xA5 1 2 true 15).run = .running ∧
      (stateAt 0xA5 1 2 true 15).nextInstr.wellFormed = false := by decide

theorem witness_NoOtherExceptionExists : ∃ t, step (stateAt 0xC0 1 2 true 15) = .next t ∧
    t.fault ≠ (stateAt 0xC0 1 2 true 15).fault :=
  ⟨_, rfl, by decide⟩

/-- Both sides of the equivalence: `ADD A,15; ADD A,1; ADD A,1` ends with C set, a MOV after it
clears C. -/
theorem witness_CarryIsSetByTheLastRunOfAdds :
    State.reset.c = false ∧
    (∀ i ∈ [Instr.addAIm 15, .addAIm 1, .addAIm 1, .movAB], i.wellFormed = true) ∧
    (∃ t, execAll [.addAIm 15, .addAIm 1, .addAIm 1] State.reset = .next t ∧ t.c = true) ∧
    (∃ t, execAll [.addAIm 15, .addAIm 1, .addAIm 1, .movAB] State.reset = .next t ∧ t.c = false) :=
  ⟨rfl, by decide, ⟨_, rfl, by decide⟩, ⟨_, rfl, by decide⟩⟩

/-- The new PC at L - 1 and at L. -/
theorem witness_HaltCheckAfterEveryTransition :
    ((stateAt 0x30 0 0 false 2 4).run = .running ∧
      (stateAt 0x30 0 0 false 2 4).nextInstr.wellFormed = true) ∧
    ((stateAt 0x30 0 0 false 3 4).run = .running ∧
      (stateAt 0x30 0 0 false 3 4).nextInstr.wellFormed = true) := by decide

/-- A state for each way: run-off (also with L = 15), jump out, unknown opcode, the empty program,
and one that runs on at address 15 with L = 16. -/
theorem witness_WaysToReachHalted :
    ∀ s ∈ [stateAt 0x30 0 0 false 3 4, stateAt 0x30 0 0 false 14 15, stateAt 0xF4 0 0 false 3 4,
      stateAt 0x80 0 0 false 3 4, State.reset, stateAt 0x30 0 0 false 15],
      StateInv s ∧ s.run = .running := by
  unfold StateInv; decide

theorem witness_StepRunsTheDecodedInstruction :
    (stateAt 0x57 1 9 false 2).run = .running ∧
      decode ((stateAt 0x57 1 9 false 2).memRead (stateAt 0x57 1 9 false 2).pc) = .addBIm 7 := by
  decide

theorem witness_StepEqualsWholeNextStateFunction :
    { stateAt 0x60 1 9 false 15 with inputs := [6] }.run = .running := by decide

theorem witness_HaltedIsTerminal : ({ State.reset with run := .halted } : State).run = .halted := rfl

theorem witness_EmptyStoreTakesOneHarmlessStep :
    State.reset.progLen.val = 0 ∧ State.reset.run = .running := by decide

theorem witness_ZeroByteOnlyAdvancesPC :
    (stateAt 0x01 0 0 true 0 8).progLen.val ≤ (8#4).toNat ∧
      (Instr.movAB.wellFormed = true ∧ isAdd .movAB = false) := by decide

theorem witness_OnlyOutInstructionsWriteOut :
    isOut .inA = false ∧ isOut (.outIm 3) = true ∧
      ({ State.reset with run := .halted } : State).run = .halted := by decide

theorem witness_RunOnlyGoesFromRunningToHalted :
    (Instr.jncIm 3).wellFormed = true ∧
      ({ State.reset with run := .halted } : State).run = .halted := by decide

/-- `JMP 3` is listed as a reader of none of A, B, C and In. -/
theorem witness_OnlyListedInstructionsRead :
    (Instr.jmpIm 3 ≠ .movBA ∧ ∀ im, Instr.jmpIm 3 ≠ .addAIm im) ∧
    (Instr.jmpIm 3 ≠ .movAB ∧ (∀ im, Instr.jmpIm 3 ≠ .addBIm im) ∧ Instr.jmpIm 3 ≠ .outB) ∧
    (∀ im, Instr.jmpIm 3 ≠ .jncIm im) ∧ (Instr.jmpIm 3 ≠ .inA ∧ Instr.jmpIm 3 ≠ .inB) := by
  simp

/-- `JMP 3` is listed as a writer of none of A, B and Out; `unknown1000` of nothing but Run. -/
theorem witness_OnlyListedInstructionsWrite :
    ((∀ im, Instr.jmpIm 3 ≠ .movAIm im) ∧ Instr.jmpIm 3 ≠ .movAB ∧
      (∀ im, Instr.jmpIm 3 ≠ .addAIm im) ∧ Instr.jmpIm 3 ≠ .inA) ∧
    ((∀ im, Instr.jmpIm 3 ≠ .movBIm im) ∧ Instr.jmpIm 3 ≠ .movBA ∧
      (∀ im, Instr.jmpIm 3 ≠ .addBIm im) ∧ Instr.jmpIm 3 ≠ .inB) ∧
    isOut (.jmpIm 3) = false ∧ (Instr.jmpIm 3).wellFormed = true ∧
    (Instr.unknown1000 3).wellFormed = false := by
  simp [isOut, Instr.wellFormed]

theorem witness_InputLatchFollowsTheHost :
    ({ stateAt 0x20 0 0 false 0 with inputs := [9] }.run = .running ∧
      { stateAt 0x20 0 0 false 0 with inputs := [9] }.nextInstr = .inA) ∧
    ((stateAt 0x6A 0 0 false 0).run = .running ∧ (stateAt 0x6A 0 0 false 0).nextInstr = .inB) := by
  decide

theorem witness_OutEventPulsesWithTheTrace :
    (stateAt 0xB7 0 0 false 0).outEvent = true ∧ State.reset.outEvent = false := by decide

/-- A run that is cancelled and a run that halts. -/
theorem witness_RunEndsAfterTicksOrHalted :
    (stateAt 0xF6 3 1 false 6).run = .running ∧ State.reset.run = .running := by decide

theorem witness_RunningEnginesFetchInBounds : ∃ t, (stateAt 0x30 0 0 false 2 4).run = .running ∧
    step (stateAt 0x30 0 0 false 2 4) = .next t ∧ t.run = .running :=
  ⟨_, rfl, rfl, rfl⟩

/-- Two states that differ in Out, trace and record, and agree on In and on a schedule. -/
theorem witness_CoreStateDeterminesTheFuture : ∃ s t : State,
    s = { stateAt 0x20 1 9 false 2 with inLatch := 5, inputs := [6, 7] } ∧
    t = { s with outLatch := 3, trace := [3], fault := some (.unknownOpcode 0 0) } ∧
    SameCore s t ∧ s.inLatch = t.inLatch ∧ s.inputs = t.inputs ∧ s ≠ t :=
  ⟨_, _, rfl, rfl, by unfold SameCore; decide⟩

/-- Two states that differ in In and in what the host will write. -/
theorem witness_InputIsIrrelevantWithoutIn :
    SameCore (stateAt 0x57 1 9 false 2) { stateAt 0x57 1 9 false 2 with inLatch := 3, inputs := [7] } ∧
    NoInput (stateAt 0x57 1 9 false 2) := by
  unfold SameCore NoInput; decide

/-- A state that a tick gives back runs for ever. -/
theorem ticks_fixed {s : State} (h : step s = .next s) (k : Nat) : ticks k s = .next s := by
  induction k with
  | zero => rfl
  | succ k ih => rw [ticks_succ h, ih]

/-- `JMP 6` at address 6 and an IN A at address 7, In 4. -/
def selfLoop (inputs : List Nibble) : State :=
  { stateAt 0xF6 3 1 false 6 with
    inLatch := 4, inputs := inputs, mem := [(6, 0xF6#8), (7, 0x20#8)] }

/-- Constant In, with a schedule whose values all equal In and an IN in the store; and a store
without IN whose schedule changes In. Both are Running after 8192 ticks. -/
theorem witness_StillRunningAfter8192TicksNeverHalts :
    (ConstantIn (selfLoop [4, 4]) ∧ ¬ NoInput (selfLoop [4, 4]) ∧
      ticks 8192 (selfLoop [4, 4]) = .next (selfLoop []) ∧ (selfLoop []).run = .running) ∧
    (NoInput { selfLoop [4, 9] with mem := [(6, 0xF6#8)] } ∧
      ¬ ConstantIn { selfLoop [4, 9] with mem := [(6, 0xF6#8)] } ∧
      ∃ t, ticks 8192 { selfLoop [4, 9] with mem := [(6, 0xF6#8)] } = .next t ∧
        t.run = .running) := by
  refine ⟨⟨?_, ?_, ?_, rfl⟩, ?_, ?_, { selfLoop [] with inLatch := 9, mem := [(6, 0xF6#8)] }, ?_, rfl⟩
  · unfold ConstantIn; decide
  · unfold NoInput; decide
  · rw [ticks_succ (t := selfLoop [4]) rfl, ticks_succ (t := selfLoop []) rfl]
    exact ticks_fixed rfl 8190
  · unfold NoInput; decide
  · unfold ConstantIn; decide
  · rw [ticks_succ (t := { selfLoop [9] with mem := [(6, 0xF6#8)] }) rfl,
      ticks_succ (t := { selfLoop [] with inLatch := 9, mem := [(6, 0xF6#8)] }) rfl]
    exact ticks_fixed rfl 8190

end Sys2Proof.Tests
end

section
/-! The statements about the elements of spec/10_state.md: the program store (R21), Out (R19) and
Run (R20). -/

namespace Sys2Proof.Machine

/-! ## Runs of ticks -/

/-- What every tick keeps, with completion, every run of ticks keeps. -/
theorem ticks_preserve {P : State → Prop} (keep : ∀ s, P s → ∃ t, step s = .next t ∧ P t) (k : Nat) :
    ∀ s, P s → ∃ t, ticks k s = .next t ∧ P t := by
  induction k with
  | zero => exact fun s hs => ⟨s, rfl, hs⟩
  | succ k ih =>
    intro s hs
    obtain ⟨u, hu, hPu⟩ := keep s hs
    rw [ticks_succ hu]
    exact ih u hPu

/-! ## The program store (R21) -/

/-- The length and the cells determine every read. -/
theorem SameStore.of_eq {s t : State} (hlen : t.progLen = s.progLen) (hmem : t.mem = s.mem) :
    SameStore s t :=
  ⟨hlen, hmem, State.memRead_congr hlen hmem⟩

theorem SameStore.refl (s : State) : SameStore s s := .of_eq rfl rfl

theorem SameStore.trans {s t u : State} : SameStore s t → SameStore t u → SameStore s u
  | ⟨hlen, hmem, _⟩, ⟨hlen', hmem', _⟩ => .of_eq (hlen'.trans hlen) (hmem'.trans hmem)

theorem step_keeps_store (s : State) : ∃ t, step s = .next t ∧ SameStore s t := by
  cases h : s.run with
  | halted => exact ⟨s, step_halted h, .refl s⟩
  | running =>
    obtain ⟨t, ht, -, hlen, hmem, -⟩ := exec_cases (acceptInput s) (decode (fetch (acceptInput s)))
    exact ⟨endStep t, step_running h ht, .of_eq (by simp [hlen]) (by simp [hmem])⟩

/-- Settles O39: every tick completes and keeps the store, so every run of ticks does. -/
theorem programStoreIsImmutable : Obligations.ProgramStoreIsImmutable := by
  unfold Obligations.ProgramStoreIsImmutable
  intro k s
  refine ticks_preserve (P := SameStore s) (fun t hst => ?_) k s (.refl s)
  obtain ⟨u, hu, htu⟩ := step_keeps_store t
  exact ⟨u, hu, hst.trans htu⟩

/-! ## Out (R19) -/

/-- JNC (R81) as one write of PC and C, the branch inside the new PC: the form in which its frame
can be read off like that of the other instructions. -/
theorem exec_jncIm_eq (target : Nibble) (s : State) :
    exec (.jncIm target) s =
      .next { s with pc := if s.c = false then target else inc4 s.pc, c := false } :=
  congrArg _ (jumpIfNoCarry_eq s target)

/-- An instruction that is no OUT neither writes the output side of the port nor reads Out. -/
theorem exec_not_out {i : Instr} (h : isOut i = false) (s : State) :
    ∃ t, exec i s = .next t ∧ SameOutput s t ∧
      ∀ v, exec i { s with outLatch := v } = .next { t with outLatch := v } := by
  cases i with
  | outB => cases h
  | outIm im => cases h
  | jncIm im => exact ⟨_, exec_jncIm_eq im s, ⟨rfl, rfl⟩, fun v => exec_jncIm_eq im _⟩
  | _ => exact ⟨_, rfl, ⟨rfl, rfl⟩, fun _ => rfl⟩

/-- An OUT overwrites Out and so does not depend on what it held. -/
theorem exec_out {i : Instr} (h : isOut i = true) (s : State) :
    ∃ t, exec i s = .next t ∧ ∀ v, exec i { s with outLatch := v } = .next t := by
  cases i with
  | outB => exact ⟨_, rfl, fun _ => rfl⟩
  | outIm im => exact ⟨_, rfl, fun _ => rfl⟩
  | _ => cases h

/-- Settles O41: by whether the instruction is an OUT; a tick in Halted gives the same state. -/
theorem onlyOutInstructionsWriteOut : Obligations.OnlyOutInstructionsWriteOut := by
  unfold Obligations.OnlyOutInstructionsWriteOut
  refine ⟨rfl, fun i s => ?_, fun s hs => ⟨s, step_halted hs, rfl⟩⟩
  cases h : isOut i with
  | false =>
    obtain ⟨t, ht, hkeep⟩ := exec_not_out h s
    exact ⟨t, ht, fun _ => hkeep, nofun⟩
  | true =>
    obtain ⟨t, ht, hsame⟩ := exec_out h s
    exact ⟨t, ht, nofun, fun _ => hsame⟩

/-! ## Run (R20) -/

/-- One of the twelve neither writes nor reads Run. -/
theorem exec_ignores_run {i : Instr} (h : i.wellFormed = true) (s : State) :
    ∃ t, exec i s = .next t ∧ t.run = s.run ∧
      ∀ r, exec i { s with run := r } = .next { t with run := r } := by
  cases i with
  | unknown1000 raw => cases h
  | unknown1010 raw => cases h
  | unknown1100 raw => cases h
  | unknown1101 raw => cases h
  | jncIm im => exact ⟨_, exec_jncIm_eq im s, rfl, fun r => exec_jncIm_eq im _⟩
  | _ => exact ⟨_, rfl, rfl, fun _ => rfl⟩

/-- R64 for any number of ticks. -/
theorem ticks_halted {s : State} (h : s.run = .halted) (k : Nat) : ticks k s = .next s := by
  induction k with
  | zero => rfl
  | succ k ih => rw [ticks_succ (step_halted h), ih]

/-- Settles O42: the twelve leave Run alone, and ticks give a Halted engine back as it was. -/
theorem runOnlyGoesFromRunningToHalted : Obligations.RunOnlyGoesFromRunningToHalted := by
  unfold Obligations.RunOnlyGoesFromRunningToHalted
  exact ⟨rfl, fun i s h => exec_ignores_run h s, fun k s hs => ⟨s, ticks_halted hs k, hs⟩⟩

end Sys2Proof.Machine
end

section
/-! The statements about the program store as a memory: what construction puts there (R33), and that
no instruction writes it or reads it as data (R32). -/

namespace Sys2Proof.Machine

/-! ## The program-store read (R33) -/

/-- What construction can give: a store that fits, laid out from address 0, in the reset state. -/
theorem construct_ok {prog : List Byte} {s : State} (h : State.construct prog = .ok s) :
    ∃ hfit : prog.length ≤ Config.storeCapacity, s = { State.reset with
      progLen := ⟨prog.length, Nat.lt_succ_of_le hfit⟩
      mem := Memory.ofBytes 0 prog } := by
  unfold State.construct at h
  split at h
  next hfit => exact ⟨hfit, (Except.ok.inj h).symm⟩
  next => cases h

/-- Below `L` the read gives the memory's byte (the other half is `State.memRead_outside`). -/
theorem State.memRead_inside {s : State} {addr : Nibble} (h : addr.toNat < s.progLen.val) :
    s.memRead addr = s.mem.read addr.toNat := if_pos h

/-- Entry `k` of the program bytes is what address `k` of their layout from 0 reads as. -/
theorem Memory.read_ofBytes_zero {bytes : List Byte} {k : Nat} (h : k < bytes.length) :
    (Memory.ofBytes 0 bytes).read k = bytes[k] := by
  have hread := Memory.read_ofBytes bytes 0 k
  rwa [Nat.zero_add, List.getElem?_eq_getElem h, Option.getD_some] at hread

/-- Settles O3: construction lays the bytes out from address 0 with `L` their number, so the two
halves of the read are the two clauses. -/
theorem memReadFollowsProgramStore : Obligations.MemReadFollowsProgramStore := by
  unfold Obligations.MemReadFollowsProgramStore
  intro prog s hs addr
  obtain ⟨hfit, rfl⟩ := construct_ok hs
  refine ⟨fun hin => ?_, fun hout => State.memRead_outside hout⟩
  exact (State.memRead_inside hin).trans (Memory.read_ofBytes_zero hin)

/-! ## No instruction touches memory (R32) -/

/-- No instruction writes the store. -/
theorem exec_keeps_store {i : Instr} {s t : State} (h : exec i s = .next t) : SameStore s t := by
  obtain ⟨u, hu, -, hlen, hmem, -⟩ := exec_cases s i
  cases hu.symm.trans h
  exact .of_eq hlen hmem

/-- No instruction reads the store: over another one it does the same. -/
theorem exec_over_other_store {i : Instr} {s t : State} (h : exec i s = .next t)
    (m : Memory) (n : StoreLength) :
    exec i { s with mem := m, progLen := n } = .next { t with mem := m, progLen := n } := by
  cases i with
  | jncIm im =>
    cases (exec_jncIm_eq im s).symm.trans h
    exact exec_jncIm_eq im _
  | _ => cases h; rfl

/-- Settles O40: every instruction completes, keeps the store and does the same over any other. -/
theorem noInstructionTouchesMemory : Obligations.NoInstructionTouchesMemory := by
  unfold Obligations.NoInstructionTouchesMemory
  intro i s
  obtain ⟨t, ht, -⟩ := exec_cases s i
  exact ⟨t, ht, exec_keeps_store ht, exec_over_other_store ht⟩

end Sys2Proof.Machine
end

section
/-! The statements about the byte and its decoding (R45, R46, R49), and about the byte 0x00 (R52). -/

namespace Sys2Proof.Machine

open Sys2Proof.Laws

/-! ## The two nibbles of a byte (R45) -/

/-- R45: the opcode stands above the operand's four bits, so the bits add without overlap. -/
theorem joinNibbles_toNat (hi lo : Nibble) :
    (joinNibbles hi lo).toNat = hi.toNat * 16 + lo.toNat := by
  rw [joinNibbles, BitVec.toNat_append, ← Nat.shiftLeft_add_eq_or_of_lt lo.isLt, Nat.shiftLeft_eq]

/-- Settles O7: a byte is the join of its nibbles, and an encoding is a join by definition. -/
theorem byteIsOpcodeTimesSixteenPlusOperand : Obligations.ByteIsOpcodeTimesSixteenPlusOperand := by
  unfold Obligations.ByteIsOpcodeTimesSixteenPlusOperand
  refine ⟨fun b => ?_, fun i => joinNibbles_toNat (opcodeOf i) (operandOf i)⟩
  rw [← joinNibbles_toNat, join_nibbles]

/-! ## The decoder's pair (R46) -/

theorem highNibble_toNat (b : Byte) : (highNibble b).toNat = b.toNat >>> 4 := by
  have hlt : b.toNat >>> 4 < 2 ^ 4 := by rw [Nat.shiftRight_eq_div_pow]; omega
  rw [highNibble, BitVec.extractLsb'_toNat, Nat.mod_eq_of_lt hlt]

theorem lowNibble_toNat (b : Byte) : (lowNibble b).toNat = b.toNat &&& 0xF := by
  rw [lowNibble, BitVec.extractLsb'_toNat, Nat.shiftRight_zero]
  exact (Nat.and_two_pow_sub_one_eq_mod b.toNat 4).symm

/-- R47's five opcodes as numbers. -/
theorem operandForced_iff (op : Nibble) : operandForced op = true ↔
    op.toNat = 0b0001 ∨ op.toNat = 0b0010 ∨ op.toNat = 0b0100 ∨ op.toNat = 0b0110 ∨
      op.toNat = 0b1001 := by
  simp [operandForced, ← BitVec.toNat_inj, or_assoc]

/-- Settles O8: both fields are the document's arithmetic, and the forced operand reads as 0. -/
theorem decodeFieldsAsTheRuleComputes : Obligations.DecodeFieldsAsTheRuleComputes := by
  unfold Obligations.DecodeFieldsAsTheRuleComputes
  intro b
  refine ⟨highNibble_toNat b, ?_⟩
  rw [decodeFields, apply_ite BitVec.toNat, lowNibble_toNat, ← highNibble_toNat]
  exact if_congr (operandForced_iff _) rfl rfl

/-! ## The opcode map (R49) -/

/-- R46 and R49 on a byte given by its nibbles: the high one selects the row, the low one is the
operand unless the row forces it. -/
theorem decode_joinNibbles (op n : Nibble) :
    decode (joinNibbles op n) = instrOf op (if operandForced op then 0#4 else n) := by
  rw [decode, decodeFields, highNibble_join, lowNibble_join]

/-- R49's `opcode * 16` as match value: adding a low nibble to it fills the operand field. -/
theorem matchValue_add_nibble (op n : Nibble) :
    joinNibbles op 0#4 + n.setWidth 8 = joinNibbles op n := by
  have hop := op.isLt
  have hn := n.isLt
  refine BitVec.eq_of_toNat_eq ?_
  rw [BitVec.toNat_add, BitVec.toNat_setWidth, joinNibbles_toNat, joinNibbles_toNat]
  simp only [BitVec.toNat_ofNat]
  omega

/-- One row of the opcode map, for every low nibble. -/
theorem decode_row (op n : Nibble) :
    decode (joinNibbles op 0#4 + n.setWidth 8) =
      instrOf op (if operandForced op then 0#4 else n) := by
  rw [matchValue_add_nibble, decode_joinNibbles]

/-- Settles O9: the sixteen instances of `decode_row`. -/
theorem opcodeMapRowByRow : Obligations.OpcodeMapRowByRow := by
  unfold Obligations.OpcodeMapRowByRow
  intro n
  exact ⟨decode_row 0x0#4 n, decode_row 0x1#4 n, decode_row 0x2#4 n, decode_row 0x3#4 n,
    decode_row 0x4#4 n, decode_row 0x5#4 n, decode_row 0x6#4 n, decode_row 0x7#4 n,
    decode_row 0x8#4 n, decode_row 0x9#4 n, decode_row 0xA#4 n, decode_row 0xB#4 n,
    decode_row 0xC#4 n, decode_row 0xD#4 n, decode_row 0xE#4 n, decode_row 0xF#4 n⟩

/-! ## The byte 0x00 (R52) -/

theorem decode_zero_byte : decode 0x00#8 = .addAIm 0#4 := decode_joinNibbles 0#4 0#4

@[simp] theorem exactSum_zero (x : Nibble) : exactSum x 0#4 = x.toNat := rfl

@[simp] theorem narrowSum_nibble (x : Nibble) : narrowSum x.toNat = x := by
  rw [narrowSum, BitVec.ofNat_toNat, BitVec.setWidth_eq]

/-- A sum that fits in a nibble leaves the sticky carry alone. -/
@[simp] theorem stickyCarry_nibble (c0 : Bool) (x : Nibble) : stickyCarry c0 x.toNat = c0 :=
  if_neg (by omega)

/-- Adding 0 changes neither A nor C. -/
theorem addTo_a_zero (s : State) : addTo .a 0#4 s = { s with pc := inc4 s.pc } := by
  rw [addTo_a_eq, exactSum_zero, narrowSum_nibble, stickyCarry_nibble]

/-- R61 for the ten instructions that are not an ADD: C is false afterwards. -/
theorem exec_not_add_clears_carry {i : Instr} (hwf : i.wellFormed = true) (hadd : isAdd i = false)
    (s : State) : ∃ t, exec i s = .next t ∧ t.c = false := by
  cases i with
  | addAIm im => cases hadd
  | addBIm im => cases hadd
  | unknown1000 raw => cases hwf
  | unknown1010 raw => cases hwf
  | unknown1100 raw => cases hwf
  | unknown1101 raw => cases hwf
  | jncIm im => exact ⟨_, exec_jncIm_eq im s, rfl⟩
  | _ => exact ⟨_, rfl, rfl⟩

/-- Settles O38: 0x00 is ADD A,0, which moves PC alone; the reads outside the store are R33's. -/
theorem zeroByteOnlyAdvancesPC : Obligations.ZeroByteOnlyAdvancesPC := by
  unfold Obligations.ZeroByteOnlyAdvancesPC
  refine ⟨decode_zero_byte, fun s addr => State.memRead_outside, fun s => ?_,
    fun i s hwf hadd => exec_not_add_clears_carry hwf hadd s⟩
  rw [decode_zero_byte, exec_addAIm, addTo_a_zero]

end Sys2Proof.Machine
end

section
/-! The statements about the Step of spec/40_engine_step.md: the carry policy (R61) and that Halted
is terminal (R64). -/

namespace Sys2Proof.Machine

/-! ## The carry policy (R61) -/

/-- The sticky carry with its condition as a Bool, the form in which `overflows` states it. -/
theorem stickyCarry_eq_ite (c0 : Bool) (sum : Nat) :
    stickyCarry c0 sum = if decide (sum > 15) = true then true else c0 :=
  if_congr decide_eq_true_iff.symm rfl rfl

/-- An ADD sets C on overflow and leaves it alone otherwise. -/
theorem exec_add_carry {i : Instr} (hadd : isAdd i = true) (s : State) :
    ∃ t, exec i s = .next t ∧ t.c = if overflows i s then true else s.c := by
  cases i with
  | addAIm im => exact ⟨_, exec_addAIm s im, stickyCarry_eq_ite s.c (exactSum s.a im)⟩
  | addBIm im => exact ⟨_, exec_addBIm s im, stickyCarry_eq_ite s.c (exactSum s.b im)⟩
  | _ => cases hadd

/-- An unknown opcode leaves C alone. -/
theorem exec_unknown_keeps_carry {i : Instr} (hwf : i.wellFormed = false) (s : State) :
    ∃ t, exec i s = .next t ∧ t.c = s.c := by
  obtain ⟨t, ht, ⟨htrue, -⟩ | ⟨-, rfl⟩, -⟩ := exec_cases s i
  · cases htrue.symm.trans hwf
  · exact ⟨_, ht, raiseUnknownOpcode_c s (encode i)⟩

/-- Settles O29: an ADD, another of the twelve, or an unknown opcode. -/
theorem carryPolicyOfEveryInstruction : Obligations.CarryPolicyOfEveryInstruction := by
  unfold Obligations.CarryPolicyOfEveryInstruction
  intro i s
  cases hadd : isAdd i with
  | true => exact exec_add_carry hadd s
  | false =>
    cases hwf : i.wellFormed with
    | true => exact exec_not_add_clears_carry hwf hadd s
    | false => exact exec_unknown_keeps_carry hwf s

/-! ## Halted is terminal (R64) -/

/-- Settles O36: a tick in Halted gives the same state (`ticks_halted`), and the host's write to In
leaves Run as it was, so the engine it meets is still Halted. -/
theorem haltedIsTerminal : Obligations.HaltedIsTerminal := by
  unfold Obligations.HaltedIsTerminal
  intro s hs k
  refine ⟨ticks_halted hs k, fun v => ?_⟩
  have hrun : (hostWritesIn v s).run = .halted := (hostWritesIn_run s v).trans hs
  exact ticks_halted hrun k

end Sys2Proof.Machine
end

section
/-! The statements about the four MOV instructions (R71 to R74): each is a row of the opcode map, and
a `moveTo` whose source is an immediate or the other accumulator. -/

namespace Sys2Proof.Machine

/-! ## The effect of a move -/

/-- Whatever is written to A, B, C and PC, everything outside these four is the same. -/
theorem SameOutside.of_writes (s : State) (a b : Nibble) (c : Bool) (pc : Nibble) :
    SameOutside s { s with a := a, b := b, c := c, pc := pc } :=
  ⟨.of_eq rfl rfl, ⟨rfl, rfl⟩, ⟨rfl, rfl⟩, ⟨rfl, rfl⟩⟩

/-- A move into A from any source: A takes the source's value, with the frame. -/
theorem moveTo_a_effect (src : Source) (s : State) :
    (moveTo .a src s).a = readSource src s ∧ (moveTo .a src s).b = s.b ∧
      (moveTo .a src s).c = false ∧ (moveTo .a src s).pc = inc4 s.pc ∧
      SameOutside s (moveTo .a src s) := by
  rw [moveTo_a_eq]
  exact ⟨rfl, rfl, rfl, rfl, .of_writes s _ _ _ _⟩

/-- A move into B from any source: B takes the source's value, with the frame. -/
theorem moveTo_b_effect (src : Source) (s : State) :
    (moveTo .b src s).b = readSource src s ∧ (moveTo .b src s).a = s.a ∧
      (moveTo .b src s).c = false ∧ (moveTo .b src s).pc = inc4 s.pc ∧
      SameOutside s (moveTo .b src s) := by
  rw [moveTo_b_eq]
  exact ⟨rfl, rfl, rfl, rfl, .of_writes s _ _ _ _⟩

/-! ## The four moves (R71 to R74) -/

/-- Settles O12: row 0x3 keeps its nibble, and the move into A reads it. -/
theorem movAImLoadsImmediate : Obligations.MovAImLoadsImmediate := by
  unfold Obligations.MovAImLoadsImmediate
  intro im s
  exact ⟨decode_row 0x3#4 im, _, exec_movAIm s im, moveTo_a_effect (.imm im) s⟩

/-- Settles O13: row 0x7 keeps its nibble, and the move into B reads it. -/
theorem movBImLoadsImmediate : Obligations.MovBImLoadsImmediate := by
  unfold Obligations.MovBImLoadsImmediate
  intro im s
  exact ⟨decode_row 0x7#4 im, _, exec_movBIm s im, moveTo_b_effect (.imm im) s⟩

/-- Settles O14: row 0x4 drops its nibble, and the move into B reads A. -/
theorem movBACopiesA : Obligations.MovBACopiesA := by
  unfold Obligations.MovBACopiesA
  intro n s
  exact ⟨decode_row 0x4#4 n, _, exec_movBA s, moveTo_b_effect (.acc .a) s⟩

/-- Settles O15: row 0x1 drops its nibble, and the move into A reads B. -/
theorem movABCopiesB : Obligations.MovABCopiesB := by
  unfold Obligations.MovABCopiesB
  intro n s
  exact ⟨decode_row 0x1#4 n, _, exec_movAB s, moveTo_a_effect (.acc .b) s⟩

end Sys2Proof.Machine
end

section
/-! The statements about the two ADD instructions (R75, R76): each is a row of the opcode map, and an
`addTo` whose sum is narrowed to a nibble and whose carry is sticky. -/

namespace Sys2Proof.Machine

/-! ## The effect of an addition -/

/-- What is stored of the exact sum: the sum over naturals, modulo 16 (R75, R78 (c)). -/
theorem narrowSum_exactSum_toNat (x im : Nibble) :
    (narrowSum (exactSum x im)).toNat = (x.toNat + im.toNat) % 16 :=
  narrowSum_toNat (exactSum x im)

/-- The sticky carry of an exact sum, over naturals (R77). -/
theorem stickyCarry_exactSum (c0 : Bool) (x im : Nibble) :
    stickyCarry c0 (exactSum x im) = if x.toNat + im.toNat > 15 then true else c0 := rfl

/-- An addition to A: the narrowed sum and the sticky carry, with the frame. -/
theorem addTo_a_effect (im : Nibble) (s : State) :
    (addTo .a im s).a.toNat = (s.a.toNat + im.toNat) % 16 ∧
      (addTo .a im s).c = (if s.a.toNat + im.toNat > 15 then true else s.c) ∧
      (addTo .a im s).b = s.b ∧ (addTo .a im s).pc = inc4 s.pc ∧
      SameOutside s (addTo .a im s) := by
  rw [addTo_a_eq]
  exact ⟨narrowSum_exactSum_toNat s.a im, stickyCarry_exactSum s.c s.a im, rfl, rfl,
    .of_writes s _ _ _ _⟩

/-- An addition to B: the narrowed sum and the sticky carry, in the same C, with the frame. -/
theorem addTo_b_effect (im : Nibble) (s : State) :
    (addTo .b im s).b.toNat = (s.b.toNat + im.toNat) % 16 ∧
      (addTo .b im s).c = (if s.b.toNat + im.toNat > 15 then true else s.c) ∧
      (addTo .b im s).a = s.a ∧ (addTo .b im s).pc = inc4 s.pc ∧
      SameOutside s (addTo .b im s) := by
  rw [addTo_b_eq]
  exact ⟨narrowSum_exactSum_toNat s.b im, stickyCarry_exactSum s.c s.b im, rfl, rfl,
    .of_writes s _ _ _ _⟩

/-! ## The two additions (R75, R76) -/

/-- Settles O16: row 0x0 keeps its nibble, and the addition to A takes it. -/
theorem addAImAddsWithStickyCarry : Obligations.AddAImAddsWithStickyCarry := by
  unfold Obligations.AddAImAddsWithStickyCarry
  intro im s
  exact ⟨decode_row 0x0#4 im, _, exec_addAIm s im, addTo_a_effect im s⟩

/-- Settles O17: row 0x5 keeps its nibble, and the addition to B takes it. -/
theorem addBImAddsWithStickyCarry : Obligations.AddBImAddsWithStickyCarry := by
  unfold Obligations.AddBImAddsWithStickyCarry
  intro im s
  exact ⟨decode_row 0x5#4 im, _, exec_addBIm s im, addTo_b_effect im s⟩

end Sys2Proof.Machine
end

section
/-! The statements about the two jumps (R80, R81): each is a row of the opcode map, and a `jumpTo`:
JMP's goes to the immediate, JNC's to the immediate or to the next address, as C was before. -/

namespace Sys2Proof.Machine

/-! ## The effect of a jump -/

/-- A jump takes its target into PC and clears C, with the frame. -/
theorem jumpTo_effect (target : Nibble) (s : State) :
    (jumpTo target s).pc = target ∧ (jumpTo target s).c = false ∧
      (jumpTo target s).a = s.a ∧ (jumpTo target s).b = s.b ∧
      SameOutside s (jumpTo target s) := by
  rw [jumpTo_eq]
  exact ⟨rfl, rfl, rfl, rfl, .of_writes s _ _ _ _⟩

/-- R81: both paths of JNC are a jump; C before the Step only selects the target. -/
theorem exec_jncIm_eq_jumpTo (im : Nibble) (s : State) :
    exec (.jncIm im) s = .next (jumpTo (if s.c = false then im else inc4 s.pc) s) := by
  rw [exec_jncIm_eq, jumpTo_eq]

/-! ## The whole Step of a jump -/

/-- R63 for a transition that did not fault: Run is decided by the PC reached alone. -/
theorem endStep_run_of_running {s : State} (h : s.run = .running) :
    (endStep s).run = if s.progLen.val ≤ s.pc.toNat then .halted else .running := by
  simp [endStep_run, h]

/-- A Step whose transition is a jump ends at the target with C false, and the halt check looks at
the target. -/
theorem step_of_jumpTo {s : State} {target : Nibble} (hrun : s.run = .running)
    (hexec : exec s.nextInstr (acceptInput s) = .next (jumpTo target (acceptInput s))) :
    ∃ t, step s = .next t ∧ t.pc = target ∧ t.c = false ∧
      t.run = if s.progLen.val ≤ target.toNat then .halted else .running := by
  have hjump : (jumpTo target (acceptInput s)).run = .running := (acceptInput_run s).trans hrun
  refine ⟨endStep (jumpTo target (acceptInput s)), step_running hrun hexec, ?_, ?_, ?_⟩
  · rw [endStep_pc, jumpTo_eq]
  · rw [endStep_c, jumpTo_eq]
  · rw [endStep_run_of_running hjump, jumpTo_eq, acceptInput_progLen]

/-! ## The two jumps (R80, R81) -/

/-- Settles O19: row 0xF keeps its nibble, and the jump goes there. -/
theorem jmpSetsPC : Obligations.JmpSetsPC := by
  unfold Obligations.JmpSetsPC
  intro im s
  refine ⟨decode_row 0xF#4 im, ⟨_, exec_jmpIm s im, jumpTo_effect im s⟩, fun hrun hnext => ?_⟩
  exact step_of_jumpTo hrun (by rw [hnext, exec_jmpIm])

/-- Settles O20: row 0xE keeps its nibble, and the jump goes where C sends it; the host's move before
the Step changes neither C nor PC, so C and PC of the state before decide. -/
theorem jncJumpsWhenCarryClear : Obligations.JncJumpsWhenCarryClear := by
  unfold Obligations.JncJumpsWhenCarryClear
  intro im s
  refine ⟨decode_row 0xE#4 im, ⟨_, exec_jncIm_eq_jumpTo im s, jumpTo_effect _ s⟩,
    fun hrun hnext => ?_⟩
  have hexec : exec s.nextInstr (acceptInput s) =
      .next (jumpTo (if s.c = false then im else inc4 s.pc) (acceptInput s)) := by
    rw [hnext, exec_jncIm_eq_jumpTo, acceptInput_c, acceptInput_pc]
  obtain ⟨t, ht, hpc, hc, hrun'⟩ := step_of_jumpTo hrun hexec
  exact ⟨t, ht, hc, hpc, hrun'⟩

end Sys2Proof.Machine
end

section
/-! The statements about IN and OUT (R87 to R90): each is a row of the opcode map, IN a `moveTo` whose
source is the port, OUT an `outputFrom` an accumulator or an immediate. -/

namespace Sys2Proof.Machine

/-! ## The effect of an output -/

/-- An output from any source: Out takes the value and one event carries it, with the frame. -/
theorem outputFrom_effect (src : Source) (s : State) :
    (outputFrom src s).outLatch = readSource src s ∧
      (outputFrom src s).trace = s.trace ++ [readSource src s] ∧
      (outputFrom src s).a = s.a ∧ (outputFrom src s).b = s.b ∧
      (outputFrom src s).c = false ∧ (outputFrom src s).pc = inc4 s.pc ∧
      SameStore s (outputFrom src s) ∧ SameInput s (outputFrom src s) ∧
      SameStatus s (outputFrom src s) := by
  rw [outputFrom_eq]
  exact ⟨rfl, rfl, rfl, rfl, rfl, rfl, .of_eq rfl rfl, ⟨rfl, rfl⟩, ⟨rfl, rfl⟩⟩

/-! ## The whole Step of an output -/

/-- A Step whose transition is an output keeps its value and its event: the end of the Step touches
Run alone, by the halt check on the next address. -/
theorem step_of_outputFrom {s : State} {src : Source} (hrun : s.run = .running)
    (hexec : exec s.nextInstr (acceptInput s) = .next (outputFrom src (acceptInput s))) :
    ∃ t, step s = .next t ∧ t.outLatch = readSource src (acceptInput s) ∧
      t.trace = s.trace ++ [readSource src (acceptInput s)] ∧
      t.run = if s.progLen.val ≤ (inc4 s.pc).toNat then .halted else .running := by
  have hout : (outputFrom src (acceptInput s)).run = .running := (acceptInput_run s).trans hrun
  refine ⟨endStep (outputFrom src (acceptInput s)), step_running hrun hexec, ?_, ?_, ?_⟩
  · rw [endStep_outLatch, outputFrom_eq]
  · rw [endStep_trace, outputFrom_eq, acceptInput_trace]
  · rw [endStep_run_of_running hout, outputFrom_eq, acceptInput_progLen, acceptInput_pc]

/-! ## IN (R87, R88) -/

/-- Settles O21: row 0x2 drops its nibble, and the move into A reads the port, which is 0 at reset. -/
theorem inAReadsPort : Obligations.InAReadsPort := by
  unfold Obligations.InAReadsPort
  refine ⟨rfl, fun n s => ?_⟩
  exact ⟨decode_row 0x2#4 n, _, exec_inA s, moveTo_a_effect .port s⟩

/-- Settles O22: row 0x6 drops its nibble, and the move into B reads the port. -/
theorem inBReadsPort : Obligations.InBReadsPort := by
  unfold Obligations.InBReadsPort
  intro n s
  exact ⟨decode_row 0x6#4 n, _, exec_inB s, moveTo_b_effect .port s⟩

/-! ## OUT (R89, R90) -/

/-- Settles O23: row 0x9 drops its nibble, and the output reads B, which the host's move before the
Step leaves alone; with the next address at or past the end the halt check answers Halted. -/
theorem outBWritesPortAndEmits : Obligations.OutBWritesPortAndEmits := by
  unfold Obligations.OutBWritesPortAndEmits
  intro n s
  refine ⟨decode_row 0x9#4 n, ⟨_, exec_outB s, outputFrom_effect (.acc .b) s⟩,
    fun hrun hnext hlast => ?_⟩
  obtain ⟨t, ht, hout, htrace, hend⟩ :=
    step_of_outputFrom (src := .acc .b) hrun (by rw [hnext, exec_outB])
  rw [readSource_acc, readAcc_b, acceptInput_b] at hout htrace
  exact ⟨t, ht, hout, htrace, hend.trans (if_pos hlast)⟩

/-- Settles O24: row 0xB keeps its nibble, and the output takes it, whatever Out held. -/
theorem outImWritesPortAndEmits : Obligations.OutImWritesPortAndEmits := by
  unfold Obligations.OutImWritesPortAndEmits
  intro im s
  exact ⟨decode_row 0xB#4 im, _, exec_outIm s im, outputFrom_effect (.imm im) s⟩

end Sys2Proof.Machine
end

section
/-! The statements about spec/60_exceptions.md: the unknown-opcode fault (R93, R100), that there is no
other (R95), the size limit at construction (R94) and cancellation (R98). -/

namespace Sys2Proof.Machine

/-! ## Which bytes are unknown opcodes (R50) -/

/-- R50: the rows of the opcode map without an instruction are the four values that name none. -/
theorem instrOf_wellFormed (op im : Nibble) :
    (instrOf op im).wellFormed = !unknownOpcodeValue op := by
  revert op im; decide

/-- The opcode field of the byte at PC decides it; the host's move before the fetch does not. -/
theorem nextInstr_wellFormed (s : State) :
    s.nextInstr.wellFormed = !unknownOpcodeValue (highNibble (s.memRead s.pc)) := by
  rw [State.nextInstr, fetch_acceptInput, decode, instrOf_wellFormed]
  rfl

theorem nextInstr_not_wellFormed_iff (s : State) :
    s.nextInstr.wellFormed = false ↔
      unknownOpcodeValue (highNibble (s.memRead s.pc)) = true := by
  rw [nextInstr_wellFormed, Bool.not_eq_false']

/-! ## The effect of the fault (R93) -/

theorem exec_of_not_wellFormed {i : Instr} (hwf : i.wellFormed = false) (s : State) :
    exec i s = .next (raiseUnknownOpcode (encode i) s) := by
  obtain ⟨t, ht, ⟨htrue, -⟩ | ⟨-, rfl⟩, -⟩ := exec_cases s i
  · cases htrue.symm.trans hwf
  · exact ht

/-- R99 (b): a transition that halted the engine is not followed by the halt check. -/
theorem endStep_of_halted {s : State} (h : s.run = .halted) : endStep s = s := by
  rw [endStep, h]

/-- The Step of an unknown opcode is the host's move and the fault, nothing more. -/
theorem step_of_not_wellFormed {s : State} (hrun : s.run = .running)
    (hwf : s.nextInstr.wellFormed = false) :
    step s = .next (raiseUnknownOpcode (encode s.nextInstr) (acceptInput s)) := by
  rw [step_running hrun (exec_of_not_wellFormed hwf _), endStep_of_halted rfl]

/-- Settles O25: the transition and the Step are both the fault, which writes Run and the record; the
host's move before the Step writes the input side alone. -/
theorem unknownOpcodeHaltsWithoutOtherChange :
    Obligations.UnknownOpcodeHaltsWithoutOtherChange := by
  unfold Obligations.UnknownOpcodeHaltsWithoutOtherChange
  refine ⟨fun raw s i hi => ?_, fun s hrun hop => ?_⟩
  · have hwf : i.wellFormed = false := by
      obtain rfl | rfl | rfl | rfl := hi <;> rfl
    exact ⟨_, exec_of_not_wellFormed hwf s, rfl, rfl, rfl, rfl, rfl, ⟨rfl, rfl⟩, ⟨rfl, rfl⟩,
      .of_eq rfl rfl⟩
  · have hwf := (nextInstr_not_wellFormed_iff s).mpr hop
    exact ⟨_, step_of_not_wellFormed hrun hwf, rfl, acceptInput_a s, acceptInput_b s,
      acceptInput_c s, acceptInput_pc s, ⟨acceptInput_outLatch s, acceptInput_trace s⟩,
      .of_eq (acceptInput_progLen s) (acceptInput_mem s)⟩

/-- Settles O27: the Step is the fault, which leaves PC alone and a Halted engine behind
(`ticks_halted`). -/
theorem faultIsPreciseAndFinal : Obligations.FaultIsPreciseAndFinal := by
  unfold Obligations.FaultIsPreciseAndFinal
  intro s hrun hwf
  exact ⟨_, step_of_not_wellFormed hrun hwf, rfl, congrArg s.memRead (acceptInput_pc s),
    ticks_halted rfl⟩

/-! ## No other exception (R95) -/

/-- A Step of one of the twelve leaves the record alone. -/
theorem step_keeps_fault_of_wellFormed {s : State} (hrun : s.run = .running)
    (hwf : s.nextInstr.wellFormed = true) : ∃ t, step s = .next t ∧ t.fault = s.fault := by
  obtain ⟨t, ht, ⟨-, -, hfault⟩ | ⟨hfalse, -⟩, -⟩ := exec_cases (acceptInput s) s.nextInstr
  · refine ⟨endStep t, step_running hrun ht, ?_⟩
    rw [endStep_fault, hfault, acceptInput_fault]
  · cases hwf.symm.trans hfalse

/-- Settles O28: of the three ticks there are (in Halted, of one of the twelve, of an unknown opcode)
only the last changes the record. -/
theorem noOtherExceptionExists : Obligations.NoOtherExceptionExists := by
  unfold Obligations.NoOtherExceptionExists
  intro s
  cases hrun : s.run with
  | halted => exact ⟨s, step_halted hrun, fun hne => absurd rfl hne⟩
  | running =>
    cases hwf : s.nextInstr.wellFormed with
    | true =>
      obtain ⟨t, ht, hfault⟩ := step_keeps_fault_of_wellFormed hrun hwf
      exact ⟨t, ht, fun hne => absurd hfault hne⟩
    | false =>
      exact ⟨_, step_of_not_wellFormed hrun hwf,
        fun _ => ⟨rfl, rfl, (nextInstr_not_wellFormed_iff s).mp hwf⟩⟩

/-! ## The size limit (R94) and cancellation (R98) -/

theorem construct_of_tooLong {prog : List Byte} (h : Config.storeCapacity < prog.length) :
    State.construct prog = .error .sizeLimit := dif_neg h.not_ge

theorem construct_of_fits {prog : List Byte} (h : prog.length ≤ Config.storeCapacity) :
    ∃ s, State.construct prog = .ok s := ⟨_, dif_pos h⟩

/-- Settles O2: the two sides of construction's one check. -/
theorem constructionRefusesLongStores : Obligations.ConstructionRefusesLongStores := by
  unfold Obligations.ConstructionRefusesLongStores
  exact fun prog => ⟨construct_of_tooLong, construct_of_fits⟩

/-- Settles O48: the run loop's equation for a cancellation, in which no step occurs. -/
theorem cancellationChangesNoState : Obligations.CancellationChangesNoState := by
  unfold Obligations.CancellationChangesNoState
  intro s pending
  rw [runLoop]

end Sys2Proof.Machine
end

section
/-! The statements about the encoder and the decoder together (R45 to R51). -/

namespace Sys2Proof.Machine

/-! ## Decoding an encoding -/

/-- The opcode map R49 undoes the row's opcode. -/
theorem instrOf_opcodeOf (i : Instr) : instrOf (opcodeOf i) (operandOf i) = i := by
  cases i <;> rw [opcodeOf, operandOf] <;> rfl

/-- Where the decoder forces the operand to 0 (R47), the encoder writes 0 (D14). -/
theorem operandOf_of_operandForced {i : Instr} (h : operandForced (opcodeOf i) = true) :
    operandOf i = 0#4 := by
  cases i with
  | movAB | inA | movBA | inB | outB => rfl
  | _ => simp [opcodeOf, operandForced] at h

/-- Settles O11: the encoding's high nibble selects the row, and the operand comes back whether the
row keeps it or forces it. -/
theorem decodeOfEncodeIsIdentity : Obligations.DecodeOfEncodeIsIdentity := by
  unfold Obligations.DecodeOfEncodeIsIdentity
  intro i
  have hoperand : (if operandForced (opcodeOf i) then 0#4 else operandOf i) = operandOf i :=
    ite_eq_right_iff.mpr fun h => (operandOf_of_operandForced h).symm
  rw [encode, decode_joinNibbles, hoperand, instrOf_opcodeOf]

/-- Settles O10: each word is given by its two nibbles. -/
theorem specWordsDecode : Obligations.SpecWordsDecode := by
  unfold Obligations.SpecWordsDecode
  exact ⟨decode_joinNibbles 0x3#4 5#4, decode_joinNibbles 0x4#4 7#4, decode_joinNibbles 0x0#4 13#4,
    decode_joinNibbles 0x5#4 12#4, decode_joinNibbles 0xE#4 5#4, decode_joinNibbles 0xF#4 15#4,
    decode_joinNibbles 0x6#4 10#4, decode_joinNibbles 0xB#4 7#4, decode_joinNibbles 0xA#4 5#4⟩

/-! ## Encoding a decoded byte -/

theorem opcodeOf_instrOf (op n : Nibble) : opcodeOf (instrOf op n) = op := by
  revert op n; decide

theorem operandOf_instrOf {op n : Nibble} (h : operandForced op = false) :
    operandOf (instrOf op n) = n := by
  revert op n; decide

theorem encode_instrOf {op n : Nibble} (h : operandForced op = false) :
    encode (instrOf op n) = joinNibbles op n := by
  rw [encode, opcodeOf_instrOf, operandOf_instrOf h]

theorem operandForced_of_unknown {op : Nibble} (h : unknownOpcodeValue op = true) :
    operandForced op = false := by
  revert op; decide

/-- R96: an unknown opcode keeps its raw nibble, so its byte can be rebuilt from the instruction. -/
theorem encode_decode_of_unknown {b : Byte} (h : unknownOpcodeValue (highNibble b) = true) :
    encode (decode b) = b := by
  have hkeep := operandForced_of_unknown h
  rw [decode, decodeFields, hkeep, encode_instrOf hkeep]
  exact Laws.join_nibbles b

end Sys2Proof.Machine
end

section
/-! The statements about construction, which is the reset (R28, R109). -/

namespace Sys2Proof.Machine

/-- Settles O1: construction fills in the store and its length, and takes all else from the reset
state. -/
theorem constructionGivesResetValues : Obligations.ConstructionGivesResetValues := by
  unfold Obligations.ConstructionGivesResetValues
  refine ⟨rfl, fun prog hfit => ?_⟩
  exact ⟨_, dif_pos hfit, rfl, rfl, rfl, rfl, rfl, rfl, rfl, rfl, rfl, rfl, rfl⟩

/-- PC 0 is in bounds for every store: below `L`, or the empty store's exception (decision D2). -/
theorem runningInBounds_of_pc_zero {s : State} (h : s.pc = 0#4) : runningInBounds s = true := by
  rcases Nat.eq_zero_or_pos s.progLen.val with hL | hL <;> simp [runningInBounds, h, hL]

/-- Settles O4: the layout of the program bytes is canonical and below their number, and PC is 0. -/
theorem constructionEstablishesInvariant : Obligations.ConstructionEstablishesInvariant := by
  unfold Obligations.ConstructionEstablishesInvariant
  intro prog s hs
  obtain ⟨hfit, rfl⟩ := construct_ok hs
  have hbelow : (Memory.ofBytes 0 prog).below prog.length = true := by
    simpa using Memory.ofBytes_below prog 0
  refine ⟨?_, rfl, runningInBounds_of_pc_zero rfl, rfl⟩
  simp only [State.storeWf, Memory.ofBytes_wf, hbelow, Bool.and_self]

/-- Settles O5: the reset state is the engine constructed on the empty store. -/
theorem resetMeetsInvariant : Obligations.ResetMeetsInvariant :=
  constructionEstablishesInvariant [] State.reset rfl

end Sys2Proof.Machine
end

section
/-! Every tick completes, so a tick is a function of the state. -/

namespace Sys2Proof.Machine

/-- The state a tick gives. -/
def nextState (s : State) : State :=
  match step s with
  | .next t => t
  | .fault _ => s
  | .refused _ => s

theorem nextState_of_step {s t : State} (h : step s = .next t) : nextState s = t := by
  rw [nextState, h]

theorem step_eq_nextState (s : State) : step s = .next (nextState s) := by
  obtain ⟨t, ht, -⟩ := step_keeps_store s
  rw [ht, nextState_of_step ht]

theorem nextState_halted {s : State} (h : s.run = .halted) : nextState s = s :=
  nextState_of_step (step_halted h)

theorem nextState_running {s u : State} (h : s.run = .running)
    (hu : exec s.nextInstr (acceptInput s) = .next u) : nextState s = endStep u :=
  nextState_of_step (step_running h hu)

theorem nextState_keeps_store (s : State) : SameStore s (nextState s) := by
  obtain ⟨t, ht, hst⟩ := step_keeps_store s
  rwa [nextState_of_step ht]

end Sys2Proof.Machine
end

section
/-! The statements about the parts of a Step: the instruction it runs, the program counter's advance
(R60), the halt check (R63) and the fault record (R96). -/

namespace Sys2Proof.Machine

/-! ## The host's move, the instruction and the end of the Step -/

theorem acceptInput_eq (s : State) :
    acceptInput s = { s with inLatch := s.inputs.head?.getD s.inLatch, inputs := s.inputs.tail } := by
  cases s with
  | mk _ _ _ _ _ _ _ _ _ _ _ inputs => cases inputs <;> rfl

theorem nextInstr_eq (s : State) : s.nextInstr = decode (s.memRead s.pc) :=
  congrArg decode (fetch_acceptInput s)

/-- R63: after a transition that did not fault the halt check decides Run and changes nothing else. -/
theorem endStep_of_running {s : State} (h : s.run = .running) :
    endStep s = { s with run := if s.progLen.val ≤ s.pc.toNat then .halted else .running } := by
  simp only [endStep, h, haltCheck]
  split <;> rfl

/-- Settles O34: the three parts of a Step, each by its own equation. -/
theorem stepRunsTheDecodedInstruction : Obligations.StepRunsTheDecodedInstruction := by
  unfold Obligations.StepRunsTheDecodedInstruction
  intro s i hrun hi
  obtain rfl : s.nextInstr = i := (nextInstr_eq s).trans hi
  obtain ⟨u, hu, -⟩ := exec_cases (acceptInput s) s.nextInstr
  refine ⟨acceptInput_eq s, u, hu, step_running hrun hu, ?_⟩
  cases h : u.run with
  | halted => rw [endStep_of_halted h, if_pos rfl]
  | running => exact endStep_of_running h

/-- The Step of one of the twelve: the transition, which leaves Run and the store alone, and the halt
check on the PC it reached. -/
theorem step_of_wellFormed {s : State} (hrun : s.run = .running)
    (hwf : s.nextInstr.wellFormed = true) :
    ∃ u, exec s.nextInstr (acceptInput s) = .next u ∧ SameStore s u ∧
      step s = .next { u with
        run := if s.progLen.val ≤ u.pc.toNat then .halted else .running } := by
  obtain ⟨u, hu, ⟨-, hr, -⟩ | ⟨hfalse, -⟩, hlen, hmem, -⟩ :=
    exec_cases (acceptInput s) s.nextInstr
  · rw [acceptInput_run] at hr
    rw [acceptInput_progLen] at hlen
    rw [acceptInput_mem] at hmem
    refine ⟨u, hu, .of_eq hlen hmem, ?_⟩
    rw [step_running hrun hu, endStep_of_running (hr.trans hrun), hlen]
  · cases hwf.symm.trans hfalse

/-- Settles O32: the Step of one of the twelve is its transition with Run decided by the check. -/
theorem haltCheckAfterEveryTransition : Obligations.HaltCheckAfterEveryTransition := by
  unfold Obligations.HaltCheckAfterEveryTransition
  intro s hrun hwf
  obtain ⟨u, hu, -, hstep⟩ := step_of_wellFormed hrun hwf
  exact ⟨u, hu, hstep⟩

/-- Settles O50: a transition that halted stays halted, and after the others the halt check leaves
the engine Running only with PC below `L`. -/
theorem runningEnginesFetchInBounds : Obligations.RunningEnginesFetchInBounds := by
  unfold Obligations.RunningEnginesFetchInBounds
  intro s t hrun hstep ht
  obtain ⟨u, hu, -⟩ := exec_cases (acceptInput s) s.nextInstr
  cases (step_running hrun hu).symm.trans hstep
  rw [endStep_run, ite_eq_right_iff.eq] at ht
  rw [endStep_pc, endStep_progLen]
  by_contra hge
  cases ht (.inr (Nat.not_lt.mp hge))

/-! ## The fault record (R96) -/

theorem encode_nextInstr_of_not_wellFormed {s : State} (h : s.nextInstr.wellFormed = false) :
    encode s.nextInstr = s.memRead s.pc := by
  rw [nextInstr_eq]
  exact encode_decode_of_unknown ((nextInstr_not_wellFormed_iff s).mp h)

/-- The Step of an unknown opcode, with the record's byte the one PC addresses. -/
theorem step_raises_fetched_byte {s : State} (hrun : s.run = .running)
    (hwf : s.nextInstr.wellFormed = false) :
    step s = .next (raiseUnknownOpcode (s.memRead s.pc) (acceptInput s)) := by
  rw [step_of_not_wellFormed hrun hwf, encode_nextInstr_of_not_wellFormed hwf]

/-- Settles O26: one of the twelve leaves the record alone; an unknown opcode's is rebuilt from the
decoded instruction, which kept the whole byte. -/
theorem faultRecordHoldsPCAndFetchedByte : Obligations.FaultRecordHoldsPCAndFetchedByte := by
  unfold Obligations.FaultRecordHoldsPCAndFetchedByte
  intro s hrun
  cases hwf : s.nextInstr.wellFormed with
  | true => exact step_keeps_fault_of_wellFormed hrun hwf
  | false =>
    refine ⟨_, step_raises_fetched_byte hrun hwf, ?_⟩
    rw [raiseUnknownOpcode_fault, acceptInput_pc, if_neg nofun]

/-! ## The program counter (R60) -/

/-- Where every instruction leaves PC. -/
theorem exec_pc (i : Instr) (s : State) : ∃ t, exec i s = .next t ∧
    t.pc = (takenTarget i s).getD (if i.wellFormed then inc4 s.pc else s.pc) := by
  cases i with
  | jncIm im =>
    refine ⟨_, exec_jncIm_eq im s, ?_⟩
    cases h : s.c <;> simp [takenTarget, Instr.wellFormed, h]
  | _ => exact ⟨_, rfl, rfl⟩

/-- Settles O30: the target of a taken jump, or the advance. -/
theorem programCounterAdvance : Obligations.ProgramCounterAdvance := by
  unfold Obligations.ProgramCounterAdvance
  intro i s
  obtain ⟨t, ht, hpc⟩ := exec_pc i s
  refine ⟨t, ht, ?_⟩
  rw [hpc]
  cases takenTarget i s with
  | some target => rfl
  | none => cases i.wellFormed <;> simp [inc4_toNat]

/-! ## The ways to reach Halted -/

/-- Whether a jump is taken does not depend on In. -/
theorem takenTarget_acceptInput (i : Instr) (s : State) :
    takenTarget i (acceptInput s) = takenTarget i s := by
  cases i <;> simp [takenTarget]

/-- A jump is one of the twelve. -/
theorem takenTarget_of_not_wellFormed {i : Instr} (h : i.wellFormed = false) (s : State) :
    takenTarget i s = none := by
  cases i with
  | unknown1000 | unknown1010 | unknown1100 | unknown1101 => rfl
  | _ => cases h

/-- The Step of one of the twelve, as far as PC and Run go. -/
theorem step_pc_run_of_wellFormed {s : State} (hrun : s.run = .running)
    (hwf : s.nextInstr.wellFormed = true) : ∃ t, step s = .next t ∧
      t.pc = (takenTarget s.nextInstr s).getD (inc4 s.pc) ∧
      (t.run = .halted ↔ s.progLen.val ≤ t.pc.toNat) := by
  obtain ⟨u, hu, -, hstep⟩ := step_of_wellFormed hrun hwf
  obtain ⟨v, hv, hpc⟩ := exec_pc s.nextInstr (acceptInput s)
  cases hu.symm.trans hv
  refine ⟨_, hstep, ?_, ?_⟩
  · simpa [hwf, takenTarget_acceptInput] using hpc
  · simp

/-- What the invariant says of a Running engine: PC is in the store, or it is at 0 of the empty one. -/
theorem StateInv.pc_in_bounds {s : State} (hinv : StateInv s) (hrun : s.run = .running) :
    s.pc.toNat < s.progLen.val ∨ s.progLen.val = 0 ∧ s.pc.toNat = 0 := by
  obtain ⟨-, -, hbounds, -⟩ := hinv
  simpa [runningInBounds, hrun, ← BitVec.toNat_inj] using hbounds

/-- Settles O33: an unknown opcode halts, a taken jump is checked at its target, and any other Step
at the next address, which for PC in bounds is `L` or the empty store's 1, the wrap to 0 never being
past the end of a full store. -/
theorem waysToReachHalted : Obligations.WaysToReachHalted := by
  unfold Obligations.WaysToReachHalted
  intro s hinv hrun
  have hbounds := hinv.pc_in_bounds hrun
  cases hwf : s.nextInstr.wellFormed with
  | false =>
    refine ⟨_, step_raises_fetched_byte hrun hwf, iff_of_true rfl ?_⟩
    exact .inr (.inr (.inl ⟨rfl, acceptInput_pc s⟩))
  | true =>
    obtain ⟨t, ht, hpc, hhalt⟩ := step_pc_run_of_wellFormed hrun hwf
    refine ⟨t, ht, hhalt.trans ?_⟩
    cases htaken : takenTarget s.nextInstr s with
    | some target =>
      rw [htaken, Option.getD_some] at hpc
      subst hpc
      constructor
      · exact fun h => .inr (.inl ⟨_, rfl, h, rfl⟩)
      · rintro (⟨-, hnone, -⟩ | ⟨target, -, h, htarget⟩ | ⟨hfalse, -⟩ | ⟨hempty, -⟩)
        · cases hnone
        · rwa [htarget]
        · cases hfalse
        · omega
    | none =>
      rw [htaken, Option.getD_none] at hpc
      have hpc' : t.pc.toNat = (s.pc.toNat + 1) % 16 := by rw [hpc, inc4_toNat]
      have hL := s.progLen.isLt
      simp only [reduceCtorEq, false_and, exists_false, true_and, false_or]
      omega

end Sys2Proof.Machine
end

section
/-! The statements about the access table (10_state.md, 8): who reads and who writes A, B, C and In. -/

namespace Sys2Proof.Machine

section
variable {i : Instr} {s t : State}

/-! ## Readers -/

theorem exec_ignores_a (ht : exec i s = .next t) (hmov : i ≠ .movBA) (hadd : ∀ im, i ≠ .addAIm im)
    (v : Nibble) : ∃ u, exec i { s with a := v } = .next u ∧ { u with a := t.a } = t := by
  cases i with
  | movBA => cases hmov rfl
  | addAIm im => cases hadd im rfl
  | jncIm im =>
    cases (exec_jncIm_eq im s).symm.trans ht
    exact ⟨_, exec_jncIm_eq im _, rfl⟩
  | _ => cases ht; exact ⟨_, rfl, rfl⟩

theorem exec_ignores_b (ht : exec i s = .next t) (hmov : i ≠ .movAB) (hadd : ∀ im, i ≠ .addBIm im)
    (hout : i ≠ .outB) (v : Nibble) :
    ∃ u, exec i { s with b := v } = .next u ∧ { u with b := t.b } = t := by
  cases i with
  | movAB => cases hmov rfl
  | addBIm im => cases hadd im rfl
  | outB => cases hout rfl
  | jncIm im =>
    cases (exec_jncIm_eq im s).symm.trans ht
    exact ⟨_, exec_jncIm_eq im _, rfl⟩
  | _ => cases ht; exact ⟨_, rfl, rfl⟩

theorem exec_ignores_c (ht : exec i s = .next t) (hjnc : ∀ im, i ≠ .jncIm im) (v : Bool) :
    ∃ u, exec i { s with c := v } = .next u ∧ { u with c := t.c } = t := by
  cases i with
  | jncIm im => cases hjnc im rfl
  | _ => cases ht; exact ⟨_, rfl, rfl⟩

theorem exec_ignores_inLatch (ht : exec i s = .next t) (hinA : i ≠ .inA) (hinB : i ≠ .inB)
    (v : Nibble) :
    ∃ u, exec i { s with inLatch := v } = .next u ∧ { u with inLatch := t.inLatch } = t := by
  cases i with
  | inA => cases hinA rfl
  | inB => cases hinB rfl
  | jncIm im =>
    cases (exec_jncIm_eq im s).symm.trans ht
    exact ⟨_, exec_jncIm_eq im _, rfl⟩
  | _ => cases ht; exact ⟨_, rfl, rfl⟩

/-! ## Writers -/

theorem exec_keeps_a (ht : exec i s = .next t) (himm : ∀ im, i ≠ .movAIm im) (hmov : i ≠ .movAB)
    (hadd : ∀ im, i ≠ .addAIm im) (hin : i ≠ .inA) : t.a = s.a := by
  cases i with
  | movAIm im => cases himm im rfl
  | movAB => cases hmov rfl
  | addAIm im => cases hadd im rfl
  | inA => cases hin rfl
  | jncIm im => cases (exec_jncIm_eq im s).symm.trans ht; rfl
  | _ => cases ht; rfl

theorem exec_keeps_b (ht : exec i s = .next t) (himm : ∀ im, i ≠ .movBIm im) (hmov : i ≠ .movBA)
    (hadd : ∀ im, i ≠ .addBIm im) (hin : i ≠ .inB) : t.b = s.b := by
  cases i with
  | movBIm im => cases himm im rfl
  | movBA => cases hmov rfl
  | addBIm im => cases hadd im rfl
  | inB => cases hin rfl
  | jncIm im => cases (exec_jncIm_eq im s).symm.trans ht; rfl
  | _ => cases ht; rfl

theorem exec_keeps_output (ht : exec i s = .next t) (h : isOut i = false) : SameOutput s t := by
  obtain ⟨u, hu, hsame, -⟩ := exec_not_out h s
  cases hu.symm.trans ht
  exact hsame

theorem exec_keeps_status (ht : exec i s = .next t) (hwf : i.wellFormed = true) :
    SameStatus s t := by
  obtain ⟨u, hu, ⟨-, hrun, hfault⟩ | ⟨hfalse, -⟩, -⟩ := exec_cases s i
  · cases hu.symm.trans ht
    exact ⟨hrun, hfault⟩
  · cases hwf.symm.trans hfalse

theorem exec_unknown_keeps_carry_pc (ht : exec i s = .next t) (hwf : i.wellFormed = false) :
    t.c = s.c ∧ t.pc = s.pc := by
  cases (exec_of_not_wellFormed hwf s).symm.trans ht
  exact ⟨rfl, rfl⟩

theorem exec_keeps_input (ht : exec i s = .next t) : SameInput s t := by
  obtain ⟨u, hu, -, -, -, hlatch, hinputs⟩ := exec_cases s i
  cases hu.symm.trans ht
  exact ⟨hlatch, hinputs⟩

end

/-- Settles O43: the four columns of readers. -/
theorem onlyListedInstructionsRead : Obligations.OnlyListedInstructionsRead := by
  unfold Obligations.OnlyListedInstructionsRead
  intro i s
  obtain ⟨t, ht, -⟩ := exec_cases s i
  exact ⟨t, ht, exec_ignores_a ht, exec_ignores_b ht, exec_ignores_c ht, exec_ignores_inLatch ht⟩

/-- Settles O44: the columns of writers. -/
theorem onlyListedInstructionsWrite : Obligations.OnlyListedInstructionsWrite := by
  unfold Obligations.OnlyListedInstructionsWrite
  intro i s
  obtain ⟨t, ht, -⟩ := exec_cases s i
  exact ⟨t, ht, exec_keeps_a ht, exec_keeps_b ht, exec_keeps_output ht, exec_keeps_status ht,
    exec_unknown_keeps_carry_pc ht, exec_keeps_input ht, exec_keeps_store ht⟩

end Sys2Proof.Machine
end

section
/-! The statements about the port over ticks: In is the host's (R41), Out and the trace move only in
an OUT (R22, R27). -/

namespace Sys2Proof.Machine

/-! ## In -/

/-- A Step leaves the input side as the host's move before it left it. -/
theorem step_input_of_running {s u : State} (hrun : s.run = .running)
    (hu : exec s.nextInstr (acceptInput s) = .next u) :
    step s = .next (endStep u) ∧ (endStep u).inLatch = s.inputs.head?.getD s.inLatch ∧
      (endStep u).inputs = s.inputs.tail := by
  obtain ⟨hlatch, hinputs⟩ := exec_keeps_input hu
  refine ⟨step_running hrun hu, ?_, ?_⟩
  · rw [endStep_inLatch, hlatch, acceptInput_inLatch]
  · rw [endStep_inputs, hinputs, acceptInput_inputs]

theorem exec_inA_reads {s t : State} (h : exec .inA s = .next t) : t.a = t.inLatch := by
  cases h; rfl

theorem exec_inB_reads {s t : State} (h : exec .inB s = .next t) : t.b = t.inLatch := by
  cases h; rfl

/-- Settles O45: the instruction keeps the host's value, and IN moves it into its accumulator. -/
theorem inputLatchFollowsTheHost : Obligations.InputLatchFollowsTheHost := by
  unfold Obligations.InputLatchFollowsTheHost
  intro s hrun
  obtain ⟨u, hu, -⟩ := exec_cases (acceptInput s) s.nextInstr
  obtain ⟨hstep, hlatch, hinputs⟩ := step_input_of_running hrun hu
  refine ⟨_, hstep, hlatch, hinputs, fun hin => ?_, fun hin => ?_⟩
  · rw [hin] at hu
    rw [endStep_a, endStep_inLatch, exec_inA_reads hu]
  · rw [hin] at hu
    rw [endStep_b, endStep_inLatch, exec_inB_reads hu]

/-! ## Out and the trace -/

theorem exec_out_appends {i : Instr} {s t : State} (ht : exec i s = .next t) (h : isOut i = true) :
    t.trace = s.trace ++ [t.outLatch] := by
  cases i with
  | outB => cases ht; rfl
  | outIm im => cases ht; rfl
  | _ => cases h

theorem outEvent_of_running {s : State} (hrun : s.run = .running) :
    s.outEvent = isOut s.nextInstr := by
  rw [State.outEvent, hrun, State.nextInstr, fetch_acceptInput]
  rfl

/-- A tick with `out_event` up appends the value Out then holds; any other leaves the output side. -/
theorem nextState_output (s : State) :
    (s.outEvent = true → (nextState s).trace = s.trace ++ [(nextState s).outLatch]) ∧
      (s.outEvent = false → SameOutput s (nextState s)) := by
  cases hrun : s.run with
  | halted =>
    rw [nextState_halted hrun, State.outEvent, hrun]
    exact ⟨nofun, fun _ => ⟨rfl, rfl⟩⟩
  | running =>
    obtain ⟨u, hu, -⟩ := exec_cases (acceptInput s) s.nextInstr
    rw [outEvent_of_running hrun, nextState_running hrun hu, endStep_trace, endStep_outLatch]
    refine ⟨fun h => ?_, fun h => ?_⟩
    · rw [exec_out_appends hu h, acceptInput_trace]
    · obtain ⟨hout, htrace⟩ := exec_keeps_output hu h
      rw [acceptInput_outLatch] at hout
      rw [acceptInput_trace] at htrace
      exact ⟨(endStep_outLatch u).trans hout, (endStep_trace u).trans htrace⟩

/-- Settles O47: the two cases of `nextState_output`. -/
theorem outEventPulsesWithTheTrace : Obligations.OutEventPulsesWithTheTrace := by
  unfold Obligations.OutEventPulsesWithTheTrace
  intro s
  obtain ⟨hout, hquiet⟩ := nextState_output s
  exact ⟨_, step_eq_nextState s, hout, fun h => (hquiet h).symm⟩

theorem nextState_appends_at_most_one (s : State) :
    ∃ events : List Nibble, (nextState s).trace = s.trace ++ events ∧ events.length ≤ 1 := by
  obtain ⟨hout, hquiet⟩ := nextState_output s
  cases h : s.outEvent with
  | true => exact ⟨_, hout h, Nat.le_refl 1⟩
  | false => exact ⟨[], by rw [(hquiet h).2, List.append_nil], Nat.zero_le 1⟩

/-- Settles O46: by induction over the ticks, each of which appends at most one event. -/
theorem traceOnlyGrows : Obligations.TraceOnlyGrows := by
  unfold Obligations.TraceOnlyGrows
  intro k
  induction k with
  | zero => exact fun s => ⟨s, rfl, [], (List.append_nil _).symm, Nat.le_refl 0⟩
  | succ k ih =>
    intro s
    obtain ⟨first, hfirst, hone⟩ := nextState_appends_at_most_one s
    obtain ⟨t, ht, later, hlater, hk⟩ := ih (nextState s)
    refine ⟨t, (ticks_succ (step_eq_nextState s) k).trans ht, first ++ later, ?_, ?_⟩
    · rw [hlater, hfirst, List.append_assoc]
    · rw [List.length_append]; omega

end Sys2Proof.Machine
end

section
/-! The statement that every step keeps the invariant (10_state.md, 11). -/

namespace Sys2Proof.Machine

theorem SameStore.storeWf {s t : State} (h : SameStore s t) (hwf : s.storeWf = true) :
    t.storeWf = true := by
  obtain ⟨hlen, hmem, -⟩ := h
  rwa [State.storeWf, hlen, hmem]

/-- R22: an event is the value Out takes with it, and without one neither moves. -/
theorem nextState_outMatchesTrace {s : State} (h : outMatchesTrace s = true) :
    outMatchesTrace (nextState s) = true := by
  obtain ⟨hout, hquiet⟩ := nextState_output s
  cases hev : s.outEvent with
  | true => simp [outMatchesTrace, hout hev]
  | false =>
    obtain ⟨hlatch, htrace⟩ := hquiet hev
    rwa [outMatchesTrace, hlatch, htrace]

/-- R29, R34: a Step that leaves the engine Running leaves PC below `L`. -/
theorem nextState_runningInBounds {s : State} (hrun : s.run = .running) :
    runningInBounds (nextState s) = true := by
  cases h : (nextState s).run with
  | halted => simp [runningInBounds, h]
  | running =>
    have hpc := runningEnginesFetchInBounds s _ hrun (step_eq_nextState s) h
    simp [runningInBounds, hpc]

/-- A byte outside the store is 0x00, which is no unknown opcode. -/
theorem pc_inside_of_unknown {s : State}
    (h : unknownOpcodeValue (highNibble (s.memRead s.pc)) = true) : s.pc.toNat < s.progLen.val := by
  by_contra hout
  rw [State.memRead_outside (Nat.not_lt.mp hout)] at h
  cases h

/-- R96, R100: the fault that a Step raises is recorded with the byte PC still addresses. -/
theorem raiseUnknownOpcode_faultIsPrecise {s : State}
    (h : unknownOpcodeValue (highNibble (s.memRead s.pc)) = true) :
    faultIsPrecise (raiseUnknownOpcode (s.memRead s.pc) (acceptInput s)) = true := by
  have hread : (raiseUnknownOpcode (s.memRead s.pc) (acceptInput s)).memRead s.pc =
      s.memRead s.pc := State.memRead_congr (acceptInput_progLen s) (acceptInput_mem s) s.pc
  simp [faultIsPrecise, hread, h, pc_inside_of_unknown h]

/-- A Running engine of the invariant has no record. -/
theorem fault_none_of_running {s : State} (h : faultIsPrecise s = true) (hrun : s.run = .running) :
    s.fault = none := by
  cases hf : s.fault with
  | none => rfl
  | some cause => cases cause; simp [faultIsPrecise, hf, hrun] at h

theorem nextState_faultIsPrecise {s : State} (h : faultIsPrecise s = true)
    (hrun : s.run = .running) : faultIsPrecise (nextState s) = true := by
  cases hwf : s.nextInstr.wellFormed with
  | true =>
    obtain ⟨t, ht, hfault⟩ := step_keeps_fault_of_wellFormed hrun hwf
    rw [nextState_of_step ht, faultIsPrecise, hfault, fault_none_of_running h hrun]
  | false =>
    rw [nextState_of_step (step_raises_fetched_byte hrun hwf)]
    exact raiseUnknownOpcode_faultIsPrecise ((nextInstr_not_wellFormed_iff s).mp hwf)

/-- Settles O6: a tick in Halted gives the same state, and a Step keeps each of the four parts. -/
theorem stepKeepsInvariant : Obligations.StepKeepsInvariant := by
  unfold Obligations.StepKeepsInvariant
  intro s t hinv hstep
  obtain rfl := nextState_of_step hstep
  obtain ⟨hstore, hout, hbounds, hfault⟩ := hinv
  cases hrun : s.run with
  | halted => rw [nextState_halted hrun]; exact ⟨hstore, hout, hbounds, hfault⟩
  | running =>
    exact ⟨(nextState_keeps_store s).storeWf hstore, nextState_outMatchesTrace hout,
      nextState_runningInBounds hrun, nextState_faultIsPrecise hfault hrun⟩

end Sys2Proof.Machine
end

section
/-! The statements about ADD beyond its rules: subtraction by complement (R78 (e)), the carry after a
sequence (R84), and the empty store's one Step (decision D2). -/

namespace Sys2Proof.Machine

/-! ## Adding the complement -/

/-- The immediate `16 - n` as a number. -/
theorem complement_toNat {n : Nat} (h1 : 1 ≤ n) : (BitVec.ofNat 4 (16 - n)).toNat = 16 - n := by
  rw [BitVec.toNat_ofNat]; omega

theorem narrowSum_complement {n : Nat} (h1 : 1 ≤ n) (h15 : n ≤ 15) (x : Nibble) :
    narrowSum (exactSum x (BitVec.ofNat 4 (16 - n))) = x - BitVec.ofNat 4 n := by
  refine BitVec.eq_of_toNat_eq ?_
  rw [narrowSum_exactSum_toNat, complement_toNat h1, BitVec.toNat_sub, BitVec.toNat_ofNat]
  omega

theorem stickyCarry_complement {n : Nat} (h1 : 1 ≤ n) (h15 : n ≤ 15) (c0 : Bool) (x : Nibble) :
    stickyCarry c0 (exactSum x (BitVec.ofNat 4 (16 - n))) = (c0 || decide (n ≤ x.toNat)) := by
  have hiff : x.toNat + (16 - n) > 15 ↔ n ≤ x.toNat := by omega
  rw [stickyCarry_eq, exactSum, complement_toNat h1, decide_eq_decide.mpr hiff]

/-- Settles O18: for either accumulator the narrowed sum is the difference, and the sum passes 15
exactly when nothing is borrowed. -/
theorem addingComplementSubtracts : Obligations.AddingComplementSubtracts := by
  unfold Obligations.AddingComplementSubtracts
  intro n s h1 h15
  exact ⟨⟨_, exec_addAIm s _, narrowSum_complement h1 h15 s.a, stickyCarry_complement h1 h15 s.c s.a⟩,
    ⟨_, exec_addBIm s _, narrowSum_complement h1 h15 s.b, stickyCarry_complement h1 h15 s.c s.b⟩⟩

/-! ## The carry after a sequence -/

/-- Carried out from `s`, the sequence ends in ADDs that begin with one that overflowed. -/
def EndsInOverflowingAdds (is : List Instr) (s : State) : Prop :=
  ∃ (before : List Instr) (i : Instr) (after : List Instr) (u : State),
    is = before ++ i :: after ∧ (∀ j ∈ after, isAdd j = true) ∧
    execAll before s = .next u ∧ overflows i u = true

theorem execAll_cons {i : Instr} {s u : State} (h : exec i s = .next u) (is : List Instr) :
    execAll (i :: is) s = execAll is u := by
  rw [execAll, h]

theorem not_endsInOverflowingAdds_nil (s : State) : ¬ EndsInOverflowingAdds [] s := by
  rintro ⟨before, i, after, u, his, -⟩
  simp at his

/-- The run of ADDs begins with the first instruction, or later. -/
theorem endsInOverflowingAdds_cons {i : Instr} {s u : State} (hu : exec i s = .next u)
    (is : List Instr) : EndsInOverflowingAdds (i :: is) s ↔
      (overflows i s = true ∧ ∀ j ∈ is, isAdd j = true) ∨ EndsInOverflowingAdds is u := by
  constructor
  · rintro ⟨_ | ⟨i', before⟩, j, after, v, his, hafter, hbefore, hover⟩
    · cases his
      cases hbefore
      exact .inl ⟨hover, hafter⟩
    · cases his
      rw [execAll_cons hu] at hbefore
      exact .inr ⟨before, j, after, v, rfl, hafter, hbefore, hover⟩
  · rintro (⟨hover, hadds⟩ | ⟨before, j, after, v, rfl, hafter, hbefore, hover⟩)
    · exact ⟨[], i, is, s, rfl, hadds, rfl, hover⟩
    · exact ⟨i :: before, j, after, v, rfl, hafter, (execAll_cons hu before).trans hbefore, hover⟩

theorem isAdd_of_overflows {i : Instr} {s : State} (h : overflows i s = true) : isAdd i = true := by
  cases i with
  | addAIm | addBIm => rfl
  | _ => cases h

/-- R61 for one of the twelve: C is true after an ADD that overflowed or found C true. -/
theorem exec_carry_iff {i : Instr} (hwf : i.wellFormed = true) (s : State) :
    ∃ t, exec i s = .next t ∧
      (t.c = true ↔ overflows i s = true ∨ isAdd i = true ∧ s.c = true) := by
  obtain ⟨t, ht, hc⟩ := carryPolicyOfEveryInstruction i s
  refine ⟨t, ht, ?_⟩
  rw [hc]
  cases hadd : isAdd i with
  | true => cases overflows i s <;> simp
  | false =>
    have hno : overflows i s ≠ true := fun h => by cases (isAdd_of_overflows h).symm.trans hadd
    simp [hwf, hno]

/-- From any state: C also stays true through a sequence of ADDs alone. -/
theorem execAll_carry_iff (is : List Instr) :
    ∀ s : State, (∀ i ∈ is, i.wellFormed = true) → ∃ t, execAll is s = .next t ∧
      (t.c = true ↔ (s.c = true ∧ ∀ j ∈ is, isAdd j = true) ∨ EndsInOverflowingAdds is s) := by
  induction is with
  | nil => exact fun s _ => ⟨s, rfl, by simp [not_endsInOverflowingAdds_nil]⟩
  | cons i is ih =>
    intro s hwf
    obtain ⟨hi, his⟩ := List.forall_mem_cons.mp hwf
    obtain ⟨u, hu, hcarry⟩ := exec_carry_iff hi s
    obtain ⟨t, ht, hlast⟩ := ih u his
    refine ⟨t, (execAll_cons hu is).trans ht, ?_⟩
    rw [hlast, hcarry, endsInOverflowingAdds_cons hu, List.forall_mem_cons]
    tauto

/-- Settles O31: with C false at the start only an overflow in the sequence can have set it. -/
theorem carryIsSetByTheLastRunOfAdds : Obligations.CarryIsSetByTheLastRunOfAdds := by
  unfold Obligations.CarryIsSetByTheLastRunOfAdds
  intro is s hc hwf
  obtain ⟨t, ht, hcarry⟩ := execAll_carry_iff is s hwf
  refine ⟨t, ht, hcarry.trans (or_iff_right ?_)⟩
  rintro ⟨htrue, -⟩
  cases htrue.symm.trans hc

/-! ## The empty store -/

/-- Settles O37: the byte read is 0x00, which moves PC alone, and every PC is past the end. -/
theorem emptyStoreTakesOneHarmlessStep : Obligations.EmptyStoreTakesOneHarmlessStep := by
  unfold Obligations.EmptyStoreTakesOneHarmlessStep
  intro s hempty hrun
  have hread : s.memRead s.pc = 0x00#8 := State.memRead_outside (by omega)
  have hnext : s.nextInstr = .addAIm 0#4 := by
    rw [nextInstr_eq, hread, decode_zero_byte]
  have hu : exec s.nextInstr (acceptInput s) = .next { acceptInput s with pc := inc4 s.pc } := by
    rw [hnext, exec_addAIm, addTo_a_zero, acceptInput_pc]
  have hend := endStep_of_running (s := { acceptInput s with pc := inc4 s.pc })
    ((acceptInput_run s).trans hrun)
  rw [step_running hrun hu, hend]
  simp [hempty]

end Sys2Proof.Machine
end

section
/-! The statement that the Step is the spec's whole next-state function (R69). -/

namespace Sys2Proof.Machine

/-! ## The byte R69 reads and its fields -/

@[simp] theorem progList_length (s : State) : s.progList.length = s.progLen.val := by
  simp [State.progList]

/-- R69's `byte`. -/
def ruleByte (prog : List Nat) (q : RuleState) : Nat :=
  if q.PC < prog.length then prog.getD q.PC 0 else 0

/-- R69's `byte` is the program-store read at PC. -/
theorem ruleByte_eq (s : State) : ruleByte s.progList s.toRule = (s.memRead s.pc).toNat := by
  rw [ruleByte, progList_length, State.memRead, apply_ite BitVec.toNat]
  refine ite_congr rfl (fun h => ?_) (fun _ => rfl)
  simp only [State.toRule] at h ⊢
  simp [State.progList, List.getD, h]

/-- R69's `op` is the opcode of the decoded instruction. -/
theorem div_sixteen_eq_opcode (b : Byte) : b.toNat / 16 = (opcodeOf (decode b)).toNat := by
  rw [decode, opcodeOf_instrOf, decodeFields, highNibble_toNat, Nat.shiftRight_eq_div_pow]

/-- R69's `raw` is the operand of the decoded instruction where the decoder keeps it. -/
theorem mod_sixteen_eq_operand {b : Byte} (h : operandForced (opcodeOf (decode b)) = false) :
    b.toNat % 16 = (operandOf (decode b)).toNat := by
  rw [decode, opcodeOf_instrOf] at h
  have hkeep : (decodeFields b).2 = lowNibble b := if_neg (ne_true_of_eq_false h)
  rw [decode, operandOf_instrOf h, hkeep, lowNibble_toNat]
  exact (Nat.and_two_pow_sub_one_eq_mod b.toNat 4).symm

/-! ## R69 row by row -/

/-- R69's `check` of a state that a transition gave. -/
def ruleCheck (prog : List Nat) (r : RuleState) : RuleState :=
  { r with Run := if r.PC ≥ prog.length then .halted else .running }

/-- The rows of the twelve: R69's arithmetic on `op` and `im` is the transition's. -/
theorem ruleStep_of_wellFormed {s u : State} {i : Instr} {prog : List Nat} {byte : Nat}
    (hbyte : ruleByte prog s.toRule = byte)
    (hop : byte / 16 = (opcodeOf i).toNat)
    (him : operandForced (opcodeOf i) = false → byte % 16 = (operandOf i).toNat)
    (hwf : i.wellFormed = true) (hu : exec i s = .next u) :
    ruleStep prog s.inLatch.toNat s.toRule = ruleCheck prog u.toRule := by
  unfold ruleByte at hbyte
  cases i with
  | unknown1000 | unknown1010 | unknown1100 | unknown1101 => cases hwf
  | addAIm im | addBIm im | movAIm im | movBIm im | outIm im | jmpIm im =>
    cases hu
    have him : byte % 16 = im.toNat := him rfl
    simp only [ruleStep, hbyte, hop, him, opcodeOf, BitVec.toNat_ofNat]
    simp [ruleCheck, State.toRule, moveTo_a_eq, moveTo_b_eq, outputFrom_eq, addTo_a_eq, addTo_b_eq,
      jumpTo_eq, inc4_toNat, narrowSum_exactSum_toNat, stickyCarry_exactSum]
  | movAB | movBA | inA | inB | outB =>
    cases hu
    simp only [ruleStep, hbyte, hop, opcodeOf, BitVec.toNat_ofNat]
    simp [ruleCheck, State.toRule, moveTo_a_eq, moveTo_b_eq, outputFrom_eq, inc4_toNat]
  | jncIm im =>
    cases (exec_jncIm_eq im s).symm.trans hu
    have him : byte % 16 = im.toNat := him rfl
    simp only [ruleStep, hbyte, hop, him, opcodeOf, BitVec.toNat_ofNat]
    simp [ruleCheck, State.toRule, inc4_toNat, apply_ite BitVec.toNat]

/-- R69's last row: the fault, with PC and the byte recorded. -/
theorem ruleStep_of_not_wellFormed {s : State} {i : Instr} {prog : List Nat} {byte : Byte}
    (hbyte : ruleByte prog s.toRule = byte.toNat)
    (hop : byte.toNat / 16 = (opcodeOf i).toNat) (hwf : i.wellFormed = false) (inp : Nat) :
    ruleStep prog inp s.toRule = (raiseUnknownOpcode byte s).toRule := by
  unfold ruleByte at hbyte
  cases i with
  | unknown1000 | unknown1010 | unknown1100 | unknown1101 =>
    simp only [ruleStep, hbyte, hop, opcodeOf, BitVec.toNat_ofNat]
    rfl
  | _ => cases hwf

/-! ## The Step -/

/-- R69 has no variable for the input side. -/
theorem toRule_acceptInput (s : State) : (acceptInput s).toRule = s.toRule := by
  simp [State.toRule]

/-- Settles O35: the byte of R69 is the fetched one, its fields those of the instruction that runs, and
its two outcomes the transition with the halt check and the fault. -/
theorem stepEqualsWholeNextStateFunction : Obligations.StepEqualsWholeNextStateFunction := by
  unfold Obligations.StepEqualsWholeNextStateFunction
  intro s hrun
  have hbyte := ruleByte_eq s
  have hop := div_sixteen_eq_opcode (s.memRead s.pc)
  have him := @mod_sixteen_eq_operand (s.memRead s.pc)
  rw [← nextInstr_eq] at hop him
  rw [← toRule_acceptInput s] at hbyte ⊢
  cases hwf : s.nextInstr.wellFormed with
  | true =>
    obtain ⟨u, hu, hstore, hstep⟩ := step_of_wellFormed hrun hwf
    obtain ⟨hlatch, -⟩ := exec_keeps_input hu
    rw [acceptInput_inLatch] at hlatch
    refine ⟨_, hstep, ?_, hlatch, hstore⟩
    rw [← acceptInput_inLatch, ruleStep_of_wellFormed hbyte hop him hwf hu, ruleCheck,
      progList_length]
    rfl
  | false =>
    exact ⟨_, step_raises_fetched_byte hrun hwf,
      (ruleStep_of_not_wellFormed hbyte hop hwf _).symm, acceptInput_inLatch s,
      .of_eq (acceptInput_progLen s) (acceptInput_mem s)⟩

end Sys2Proof.Machine
end

section
/-! The statement about the run loop (R66 to R68), and runs of ticks as iterates. -/

namespace Sys2Proof.Machine

/-! ## Runs as iterates -/

theorem ticks_eq_iterate (k : Nat) (s : State) : ticks k s = .next (nextState^[k] s) := by
  induction k generalizing s with
  | zero => rfl
  | succ k ih => rw [ticks_succ (step_eq_nextState s), ih, Function.iterate_succ_apply]

theorem iterate_of_ticks {k : Nat} {s t : State} (h : ticks k s = .next t) : nextState^[k] s = t :=
  Host.Outcome.next.inj ((ticks_eq_iterate k s).symm.trans h)

theorem iterate_nextState_halted {s : State} (h : s.run = .halted) (k : Nat) :
    nextState^[k] s = s :=
  Function.iterate_fixed (nextState_halted h) k

/-- A relation that ticks keep, runs of ticks keep. -/
theorem iterate_nextState_rel {R : State → State → Prop}
    (keep : ∀ s t, R s t → R (nextState s) (nextState t)) (k : Nat) {s t : State} (h : R s t) :
    R (nextState^[k] s) (nextState^[k] t) := by
  induction k generalizing s t with
  | zero => exact h
  | succ k ih => exact ih (keep s t h)

/-! ## The run loop -/

theorem runLoop_tick_running {s : State} (h : (nextState s).run = .running)
    (events : List HostEvent) : runLoop (.tick :: events) s = runLoop events (nextState s) := by
  simp [runLoop, step_eq_nextState, h]

theorem runLoop_tick_halted {s : State} (h : (nextState s).run = .halted)
    (events : List HostEvent) : runLoop (.tick :: events) s = .next (.halted (nextState s)) := by
  simp [runLoop, step_eq_nextState, h]

/-- Settles O49: by induction over the ticks; the first that halts ends the run, and the ticks after
it would change nothing. -/
theorem runEndsAfterTicksOrHalted : Obligations.RunEndsAfterTicksOrHalted := by
  unfold Obligations.RunEndsAfterTicksOrHalted
  intro k
  induction k with
  | zero => exact fun s hrun => ⟨.cancelled s, rfl, rfl, .inl ⟨s, rfl, hrun⟩⟩
  | succ k ih =>
    intro s _
    rw [ticks_succ (step_eq_nextState s), List.replicate_succ, List.cons_append]
    cases h : (nextState s).run with
    | halted =>
      exact ⟨_, runLoop_tick_halted h _, ticks_halted h k, .inr ⟨_, rfl, h⟩⟩
    | running =>
      rw [runLoop_tick_running h]
      exact ih (nextState s) h

end Sys2Proof.Machine
end

section
/-! The statements about what determines the future (70_reset_and_hazards.md, 4): ticks keep the
agreement of two states. -/

namespace Sys2Proof.Machine

/-! ## One Step from states with the same core -/

/-- States with the same core differ in the port, the record and the schedule at most. -/
theorem SameCore.exists_eq {s t : State} (h : SameCore s t) :
    ∃ inLatch outLatch trace fault inputs, t = { s with
      inLatch := inLatch, outLatch := outLatch, trace := trace, fault := fault,
      inputs := inputs } := by
  obtain ⟨ha, hb, hc, hpc, hrun, hlen, hmem⟩ := h
  refine ⟨t.inLatch, t.outLatch, t.trace, t.fault, t.inputs, ?_⟩
  rw [ha, hb, hc, hpc, hrun, hlen, hmem]

theorem SameCore.run_eq {s t : State} (h : SameCore s t) : s.run = t.run := by
  obtain ⟨-, -, -, -, hrun, -⟩ := h
  exact hrun

/-- The instruction reads In. -/
def ReadsIn (i : Instr) : Prop := i = .inA ∨ i = .inB

/-- An instruction takes states of one core to states of one core, if what IN reads is the same. -/
theorem exec_sameCore {i : Instr} {s t u v : State} (h : SameCore s t)
    (hin : ReadsIn i → s.inLatch = t.inLatch) (hu : exec i s = .next u) (hv : exec i t = .next v) :
    SameCore u v := by
  obtain ⟨inLatch, outLatch, trace, fault, inputs, rfl⟩ := h.exists_eq
  cases i with
  | inA => cases hu; cases hv; exact ⟨hin (.inl rfl), rfl, rfl, rfl, rfl, rfl, rfl⟩
  | inB => cases hu; cases hv; exact ⟨rfl, hin (.inr rfl), rfl, rfl, rfl, rfl, rfl⟩
  | jncIm im =>
    cases (exec_jncIm_eq im _).symm.trans hu
    cases (exec_jncIm_eq im _).symm.trans hv
    exact ⟨rfl, rfl, rfl, rfl, rfl, rfl, rfl⟩
  | _ => cases hu; cases hv; exact ⟨rfl, rfl, rfl, rfl, rfl, rfl, rfl⟩

theorem acceptInput_sameCore {s t : State} (h : SameCore s t) :
    SameCore (acceptInput s) (acceptInput t) := by
  simpa [SameCore] using h

theorem endStep_sameCore {s t : State} (h : SameCore s t) : SameCore (endStep s) (endStep t) := by
  obtain ⟨ha, hb, hc, hpc, hrun, hlen, hmem⟩ := h
  simp [SameCore, endStep_run, ha, hb, hc, hpc, hrun, hlen, hmem]

theorem nextInstr_eq_of_sameCore {s t : State} (h : SameCore s t) : s.nextInstr = t.nextInstr := by
  obtain ⟨-, -, -, hpc, -, hlen, hmem⟩ := h
  rw [nextInstr_eq, nextInstr_eq, hpc, State.memRead_congr hlen hmem]

/-- The core after a tick depends on the core and, if the instruction is an IN, on the value it
reads. -/
theorem nextState_sameCore {s t : State} (h : SameCore s t)
    (hin : s.run = .running → ReadsIn s.nextInstr →
      (acceptInput s).inLatch = (acceptInput t).inLatch) :
    SameCore (nextState s) (nextState t) := by
  have hst := h.run_eq
  cases hrun : s.run with
  | halted => rwa [nextState_halted hrun, nextState_halted (hst.symm.trans hrun)]
  | running =>
    obtain ⟨u, hu, -⟩ := exec_cases (acceptInput s) s.nextInstr
    obtain ⟨v, hv, -⟩ := exec_cases (acceptInput t) s.nextInstr
    have huv := exec_sameCore (acceptInput_sameCore h) (hin hrun) hu hv
    rw [nextInstr_eq_of_sameCore h] at hv
    rw [nextState_running hrun hu, nextState_running (hst.symm.trans hrun) hv]
    exact endStep_sameCore huv

/-! ## The core and the inputs determine the future -/

theorem nextState_input_of_running {s : State} (hrun : s.run = .running) :
    (nextState s).inLatch = s.inputs.head?.getD s.inLatch ∧
      (nextState s).inputs = s.inputs.tail := by
  obtain ⟨u, hu, -⟩ := exec_cases (acceptInput s) s.nextInstr
  obtain ⟨hstep, hinput⟩ := step_input_of_running hrun hu
  rwa [nextState_of_step hstep]

/-- Same core, same In and same schedule. -/
def SameCoreAndInput (s t : State) : Prop :=
  SameCore s t ∧ s.inLatch = t.inLatch ∧ s.inputs = t.inputs

theorem nextState_sameCoreAndInput (s t : State) (h : SameCoreAndInput s t) :
    SameCoreAndInput (nextState s) (nextState t) := by
  obtain ⟨hcore, hlatch, hinputs⟩ := h
  have hst := hcore.run_eq
  refine ⟨nextState_sameCore hcore fun _ _ => ?_, ?_⟩
  · rw [acceptInput_inLatch, acceptInput_inLatch, hlatch, hinputs]
  · cases hrun : s.run with
    | halted =>
      rw [nextState_halted hrun, nextState_halted (hst.symm.trans hrun)]
      exact ⟨hlatch, hinputs⟩
    | running =>
      obtain ⟨hl, hi⟩ := nextState_input_of_running hrun
      obtain ⟨hl', hi'⟩ := nextState_input_of_running (hst.symm.trans hrun)
      rw [hl, hl', hi, hi', hlatch, hinputs]
      exact ⟨rfl, rfl⟩

/-- Settles O51: ticks keep the agreement on the core and the inputs. -/
theorem coreStateDeterminesTheFuture : Obligations.CoreStateDeterminesTheFuture := by
  unfold Obligations.CoreStateDeterminesTheFuture
  intro k s t hcore hlatch hinputs
  obtain ⟨hcore', -⟩ :=
    iterate_nextState_rel nextState_sameCoreAndInput k ⟨hcore, hlatch, hinputs⟩
  exact ⟨_, _, ticks_eq_iterate k s, ticks_eq_iterate k t, hcore'⟩

/-! ## Without IN, or with In constant, the core alone determines it -/

theorem not_readsIn_of_noInput {s : State} (h : NoInput s) : ¬ ReadsIn s.nextInstr := by
  obtain ⟨hA, hB⟩ := h s.pc
  rw [nextInstr_eq]
  rintro (hin | hin)
  · exact hA hin
  · exact hB hin

theorem nextState_noInput {s : State} (h : NoInput s) : NoInput (nextState s) := by
  obtain ⟨-, -, hread⟩ := nextState_keeps_store s
  intro addr
  rw [hread addr]
  exact h addr

/-- With In constant the host's move before a Step does not change In. -/
theorem ConstantIn.head_eq {s : State} (h : ConstantIn s) :
    s.inputs.head?.getD s.inLatch = s.inLatch := by
  cases hin : s.inputs with
  | nil => rfl
  | cons v rest => exact h v (by simp [hin])

theorem nextState_constantIn {s : State} (h : ConstantIn s) :
    ConstantIn (nextState s) ∧ (nextState s).inLatch = s.inLatch := by
  cases hrun : s.run with
  | halted => rw [nextState_halted hrun]; exact ⟨h, rfl⟩
  | running =>
    obtain ⟨hlatch, hinputs⟩ := nextState_input_of_running hrun
    rw [h.head_eq] at hlatch
    refine ⟨fun v hv => ?_, hlatch⟩
    rw [hinputs] at hv
    rw [hlatch]
    exact h v (List.mem_of_mem_tail hv)

/-- Same core, and nothing to be seen of In: no IN in the store, or the same constant In. -/
def SameCoreInputSettled (s t : State) : Prop :=
  SameCore s t ∧ (NoInput s ∨ ConstantIn s ∧ ConstantIn t ∧ s.inLatch = t.inLatch)

theorem nextState_sameCoreInputSettled (s t : State) (h : SameCoreInputSettled s t) :
    SameCoreInputSettled (nextState s) (nextState t) := by
  obtain ⟨hcore, hno | ⟨hs, ht, hlatch⟩⟩ := h
  · exact ⟨nextState_sameCore hcore fun _ hin => absurd hin (not_readsIn_of_noInput hno),
      .inl (nextState_noInput hno)⟩
  · obtain ⟨hs', hslatch⟩ := nextState_constantIn hs
    obtain ⟨ht', htlatch⟩ := nextState_constantIn ht
    refine ⟨nextState_sameCore hcore fun _ _ => ?_, .inr ⟨hs', ht', ?_⟩⟩
    · rw [acceptInput_inLatch, acceptInput_inLatch, hs.head_eq, ht.head_eq, hlatch]
    · rw [hslatch, htlatch, hlatch]

/-- Settles O52: ticks keep the agreement on the core and the absence of IN. -/
theorem inputIsIrrelevantWithoutIn : Obligations.InputIsIrrelevantWithoutIn := by
  unfold Obligations.InputIsIrrelevantWithoutIn
  intro k s t hcore hno
  obtain ⟨hcore', -⟩ := iterate_nextState_rel nextState_sameCoreInputSettled k ⟨hcore, .inl hno⟩
  exact ⟨_, _, ticks_eq_iterate k s, ticks_eq_iterate k t, hcore'⟩

end Sys2Proof.Machine
end

section
/-! The statement about the bound of 8192 ticks (70_reset_and_hazards.md, 4): a pigeonhole argument on
the bits a tick can change. -/

namespace Sys2Proof.Machine

/-! ## What a run keeps -/

theorem iterate_keeps_store (k : Nat) (s : State) : SameStore s (nextState^[k] s) :=
  Function.Iterate.rec (SameStore s) (.refl s) (fun t h => h.trans (nextState_keeps_store t)) k

theorem iterate_noInput {s : State} (h : NoInput s) (k : Nat) : NoInput (nextState^[k] s) :=
  Function.Iterate.rec NoInput h (fun _ => nextState_noInput) k

theorem iterate_constantIn {s : State} (h : ConstantIn s) (k : Nat) :
    ConstantIn (nextState^[k] s) ∧ (nextState^[k] s).inLatch = s.inLatch := by
  refine Function.Iterate.rec (fun t => ConstantIn t ∧ t.inLatch = s.inLatch) ⟨h, rfl⟩ ?_ k
  rintro t ⟨ht, hlatch⟩
  obtain ⟨ht', hlatch'⟩ := nextState_constantIn ht
  exact ⟨ht', hlatch'.trans hlatch⟩

/-- An engine that is Running was Running before (R64). -/
theorem iterate_running_of_le {s : State} {k n : Nat} (hkn : k ≤ n)
    (h : (nextState^[n] s).run = .running) : (nextState^[k] s).run = .running := by
  cases hk : (nextState^[k] s).run with
  | running => rfl
  | halted =>
    rw [← Nat.sub_add_cancel hkn, Function.iterate_add_apply, iterate_nextState_halted hk, hk] at h
    cases h

/-! ## A repeated state -/

/-- The 4 + 4 + 1 + 4 bits of the core that a tick of a Running engine can change. -/
def coreBits (s : State) : Fin 16 × Fin 16 × Bool × Fin 16 :=
  (s.a.toFin, s.b.toFin, s.c, s.pc.toFin)

theorem card_coreBits : Fintype.card (Fin 16 × Fin 16 × Bool × Fin 16) = 8192 := by
  simp

theorem sameCore_of_coreBits {s t : State} (hbits : coreBits s = coreBits t)
    (hrun : s.run = t.run) (hlen : s.progLen = t.progLen) (hmem : s.mem = t.mem) :
    SameCore s t := by
  simp only [coreBits, Prod.mk.injEq] at hbits
  obtain ⟨ha, hb, hc, hpc⟩ := hbits
  exact ⟨BitVec.toFin_inj.mp ha, BitVec.toFin_inj.mp hb, hc, BitVec.toFin_inj.mp hpc, hrun, hlen,
    hmem⟩

/-- Among 8193 states two have the same bits. -/
theorem exists_repeated_coreBits (f : Nat → State) :
    ∃ i j, i < j ∧ j ≤ 8192 ∧ coreBits (f i) = coreBits (f j) := by
  obtain ⟨x, y, hne, heq⟩ := Fintype.exists_ne_map_eq_of_card_lt
    (fun k : Fin 8193 => coreBits (f k)) (by rw [card_coreBits, Fintype.card_fin]; omega)
  rcases lt_or_gt_of_ne hne with hlt | hlt
  · exact ⟨x, y, hlt, by omega, heq⟩
  · exact ⟨y, x, hlt, by omega, heq.symm⟩

/-- Two Running states of one run with the same bits have the same future. -/
theorem iterate_sameCoreInputSettled {s : State} (hin : ConstantIn s ∨ NoInput s) {i j : Nat}
    (hbits : coreBits (nextState^[i] s) = coreBits (nextState^[j] s))
    (hi : (nextState^[i] s).run = .running) (hj : (nextState^[j] s).run = .running) :
    SameCoreInputSettled (nextState^[i] s) (nextState^[j] s) := by
  obtain ⟨hleni, hmemi, -⟩ := iterate_keeps_store i s
  obtain ⟨hlenj, hmemj, -⟩ := iterate_keeps_store j s
  refine ⟨sameCore_of_coreBits hbits (hi.trans hj.symm) (hleni.trans hlenj.symm)
    (hmemi.trans hmemj.symm), ?_⟩
  rcases hin with hconst | hno
  · obtain ⟨hci, hlatchi⟩ := iterate_constantIn hconst i
    obtain ⟨hcj, hlatchj⟩ := iterate_constantIn hconst j
    exact .inr ⟨hci, hcj, hlatchi.trans hlatchj.symm⟩
  · exact .inl (iterate_noInput hno i)

/-- A run that is Running up to `j` and has at `j` the future it had at `i` is Running for ever. -/
theorem iterate_running_of_repeat {s : State} {i j : Nat} (hij : i < j)
    (hrep : SameCoreInputSettled (nextState^[i] s) (nextState^[j] s))
    (hrun : ∀ k ≤ j, (nextState^[k] s).run = .running) (k : Nat) :
    (nextState^[k] s).run = .running := by
  induction k using Nat.strong_induction_on with
  | _ k ih =>
    rcases le_or_gt k j with hk | hk
    · exact hrun k hk
    · obtain ⟨hcore, -⟩ := iterate_nextState_rel nextState_sameCoreInputSettled (k - j) hrep
      have hsame := hcore.run_eq
      rw [← Function.iterate_add_apply, ← Function.iterate_add_apply, Nat.sub_add_cancel hk.le]
        at hsame
      exact hsame.symm.trans (ih (k - j + i) (by omega))

/-- Settles O53: among the states after 0 to 8192 ticks two have the same bits, so the run repeats
from the first of them on. -/
theorem stillRunningAfter8192TicksNeverHalts :
    Obligations.StillRunningAfter8192TicksNeverHalts := by
  unfold Obligations.StillRunningAfter8192TicksNeverHalts
  intro s t hin ht hrun k
  refine ⟨_, ticks_eq_iterate k s, ?_⟩
  rw [← iterate_of_ticks ht] at hrun
  obtain ⟨i, j, hij, hj, hbits⟩ := exists_repeated_coreBits fun k => nextState^[k] s
  have hbefore : ∀ k ≤ j, (nextState^[k] s).run = .running := fun k hk =>
    iterate_running_of_le (hk.trans hj) hrun
  have hrep := iterate_sameCoreInputSettled hin hbits (hbefore i hij.le) (hbefore j le_rfl)
  exact iterate_running_of_repeat hij hrep hbefore k

end Sys2Proof.Machine
end
